-- ==== Sys2Proof/Word.lean ====
section
/-! DEFINITION. The word types of the block: every data value has 64 bits (spec/00_scope.md R6, XLEN of R4). -/

namespace Sys2Proof

/-- A data value, register or table entry (R4 `XLEN`, R6). -/
abbrev Word := BitVec 64

/-- A message byte or a byte of `BUF` (R5, R32). -/
abbrev Byte := BitVec 8

/-- Half a message byte, the unit of the 4-bit table (R131, R135). -/
abbrev Nibble := BitVec 4

/-- A command word, format `CMD96` (R80). -/
abbrev CommandWord := BitVec 96

/-- A response word, format `RSP72` (R81). -/
abbrev ResponseWord := BitVec 72

end Sys2Proof
end

