-- ==== Sys2Proof/Config.lean ====
section
/-! DEFINITION. What is fixed for the machine: the definition record, the implementation parameters of
spec/00_scope.md R4, and the free values the spec leaves open. -/

namespace Sys2Proof

/-- The three strategies (R22: 0 = Bits, 1 = Table4, 2 = Table8; the value 3 cannot be stored). -/
inductive Strategy where
  | bits
  | table4
  | table8
  deriving DecidableEq, Repr

/-- The eight fields of a parameter set in the order of R21: the staging registers `D[0..7]`, the active
registers `E_BITS .. E_STRAT` and the numeric part of a catalogue entry all have this shape. The widths are
the stored bits of R22. -/
structure Definition where
  bits   : BitVec 7
  poly   : Word
  init   : Word
  refIn  : Bool
  refOut : Bool
  xorOut : Word
  check  : Word
  strat  : Strategy
  deriving DecidableEq, Repr

namespace Config

/-- `BITS_MIN` (R4). -/
def bitsMin : Nat := 1

/-- `BITS_MAX` (R4). -/
def bitsMax : Nat := 64

/-- `LUT4_LEN` (R4). -/
def lut4Len : Nat := 16

/-- `LUT8_LEN` (R4). -/
def lut8Len : Nat := 256

/-- The largest `BUF_BYTES` (R4: "at most 65536"; the smallest is 1, D18). -/
def bufBytesMax : Nat := 65536

/-- The longest name of a catalogue entry (spec/45_catalogue_rom.md R190). -/
def nameLenMax : Nat := 127

end Config

/-- A catalogue entry: a definition of legal width with its strategy, and its name as ASCII codes, character 0 first
(spec/45_catalogue_rom.md R190, R64). -/
structure CatalogueEntry where
  definition  : Definition
  name        : List Byte
  bits_legal  : Config.bitsMin ≤ definition.bits.toNat ∧ definition.bits.toNat ≤ Config.bitsMax
  name_length : 1 ≤ name.length ∧ name.length ≤ Config.nameLenMax
  name_ascii  : ∀ b ∈ name, b.toNat < 128
  deriving DecidableEq, Repr

/-- The parameters R4 marks "parameter": the buffer size `BUF_BYTES` (D18) with its bounds, and the catalogue, whose
length is `CATLEN` (D20). Every command that depends on one has a form that takes this record, `execOn` and `stepOn` are
the block with given parameters, and `Sys2Proof.Machine.hardware` holds the values of this hardware (log 8).
DESIGN CHOICE (log 16): the spec fixes the catalogue of this hardware (R191) and not which catalogues a block with other
parameters may hold; R4 and R191 quote the source's minimum, widths 32 and 64 present. The record admits any list of legal
entries, also one without that minimum, the empty one included, and sets no upper bound on `CATLEN`. -/
structure Params where
  bufBytes  : Nat
  catalogue : List CatalogueEntry
  buf_legal : 1 ≤ bufBytes ∧ bufBytes ≤ Config.bufBytesMax
  deriving DecidableEq, Repr

/-- `CATLEN` (R4, R31). -/
def Params.catLen (p : Params) : Nat := p.catalogue.length

namespace Config

/-- FREE VALUE (log 3): the byte `BUF[a]` holds after the `n`-th hardware reset until a WRB overwrites it. R41:
"each byte holds some fixed value that the host does not know"; no value can be proved of it. -/
opaque launchByte (n : Nat) (a : Nat) : Byte

/-- FREE VALUE (log 7): what a table read would give at an index that holds no value (R26). No state that a run
reaches reads it (R63); it keeps the update functions total without giving such an entry a number. -/
opaque absentEntry (k : Nat) : Word

end Config

end Sys2Proof
end

