-- ==== Sys2Proof/Syntax.lean ====
section
/-! DEFINITION. The commands and responses of the port as data (spec/30_encoding.md R80 to R84). -/

namespace Sys2Proof

/-- The 19 commands of R84, one constructor per row of spec/opcode_table.json. An operand that is an index, a
length or a count is a natural number (its field's width is checked by `Instr.wellFormed`); one that is a byte or
a value is a bit vector. Operand bits a command ignores (R83) are not part of the term. -/
inductive Instr where
  /-- NOP, opcode 0x00, R200. -/
  | nop
  /-- RST, opcode 0x01, R201. -/
  | rst
  /-- WRD register, value: opcode 0x02, R153. -/
  | wrd (reg : Nat) (v : Word)
  /-- RDR register: opcode 0x03, R154. -/
  | rdr (reg : Nat)
  /-- CONS, opcode 0x04, R158. -/
  | cons
  /-- REFL num_bits, value: opcode 0x08, R102. -/
  | refl (n : Nat) (v : Word)
  /-- RAWB byte: opcode 0x09, R120. -/
  | rawb (b : Byte)
  /-- RDLUT index: opcode 0x0A, R137. -/
  | rdlut (k : Nat)
  /-- BEGIN, opcode 0x10, R171. -/
  | begin
  /-- UPD len, off: opcode 0x11, R172. -/
  | upd (len off : Nat)
  /-- UPDB byte: opcode 0x12, R173. -/
  | updb (b : Byte)
  /-- FINAL, opcode 0x13, R174. -/
  | final
  /-- COMPUTE len, off: opcode 0x14, R176. -/
  | compute (len off : Nat)
  /-- GETCHK, opcode 0x15, R177. -/
  | getchk
  /-- CHECK, opcode 0x16, R178. -/
  | check
  /-- LDCAT index: opcode 0x18, R192. -/
  | ldcat (i : Nat)
  /-- RDCAT entry, selector: opcode 0x19, R193. -/
  | rdcat (entry sel : Nat)
  /-- WRB index, byte: opcode 0x1C, R202. -/
  | wrb (idx : Nat) (b : Byte)
  /-- RDB index: opcode 0x1D, R203. -/
  | rdb (idx : Nat)
  deriving DecidableEq, Repr

/-- Why a word is no command (R82, R85): its `rsv` field is not zero, or its opcode is not in R84. -/
inductive IllegalWord where
  | reservedNotZero (rsv : Byte)
  | undefinedOpcode (op : Byte)
  deriving DecidableEq, Repr

/-- The status codes of spec/60_exceptions.md R211; `eIo` is never produced (R215). -/
inductive Status where
  | ok
  | eIllegal
  | eState
  | eArg
  | eSelftest
  | eIo
  deriving DecidableEq, Repr

/-- The code of a status (R211). -/
def Status.code : Status → Nat
  | .ok => 0
  | .eIllegal => 1
  | .eState => 2
  | .eArg => 3
  | .eSelftest => 4
  | .eIo => 5

/-- A response: a status and the value `r` (R81). -/
structure Response where
  st : Status
  r  : Word
  deriving DecidableEq, Repr

end Sys2Proof
end

