-- ==== Sys2Proof/Machine/State.lean ====
section
/-! DEFINITION. The state of the block (spec/10_state.md R20), its reset value (R41), and the reasons a step can
stop. -/

namespace Sys2Proof.Machine

/-- The life of the running register (R28). -/
inductive StreamState where
  | idle
  | running
  | spent
  deriving DecidableEq, Repr

/-- The code of `SS` (R28: 0 = IDLE, 1 = RUNNING, 2 = SPENT). -/
def StreamState.code : StreamState → Nat
  | .idle => 0
  | .running => 1
  | .spent => 2

/-- The active engine (R23, R24, R26): the eight active registers `E_BITS .. E_STRAT` (the inherited fields), the
four derived registers, and the entries of the lookup table that hold a value, entry 0 first (log 10). -/
structure Engine extends Definition where
  topBit  : Word
  mask    : Word
  crcInit : Word
  rPoly   : Word
  lut     : List Word
  deriving DecidableEq, Repr

/-- The message buffer (R32, R62) as the list of the bytes written since hardware reset, addresses rising
(log 3). -/
abbrev Memory := List Host.Cell

/-- What can be presented to the block: a command word (R80), or the hardware reset input (R240). -/
inductive PortInput where
  | command (w : CommandWord)
  | hardReset
  deriving DecidableEq, Repr

/-- The staging registers after reset (R41): all zero, strategy Bits. -/
def resetStaging : Definition where
  bits := 0
  poly := 0
  init := 0
  refIn := false
  refOut := false
  xorOut := 0
  check := 0
  strat := .bits

/-- The complete state of the block (R20), and three fields of the model's own: `launch`, `port`, `responses`. -/
structure State where
  /-- The staging registers `D[0..7]` (R21). -/
  staging   : Definition
  /-- The active engine, absent while `EV = 0` (R23, R24, R25, R26; log 5). -/
  engine    : Option Engine
  /-- `SS` (R28). -/
  ss        : StreamState
  /-- `REG`, absent while it holds no value (R27, R40, R41; log 5, log 9). -/
  reg       : Option Word
  /-- `ERR` (R29). -/
  err       : Word
  /-- `BUF` (R32). -/
  buf       : Memory
  /-- The model's own: how many hardware resets came after launch; it selects the free bytes of `BUF` (log 3). -/
  launch    : Nat
  /-- The model's own: what the host has presented and the block has not taken yet, oldest first (log 1). -/
  port      : List PortInput
  /-- The model's own: the responses given so far, newest first (log 2). -/
  responses : List Response
  deriving DecidableEq, Repr

/-- The state after hardware reset (R41, R241). -/
def State.reset : State where
  staging := resetStaging
  engine := none
  ss := .idle
  reg := none
  err := 0
  buf := []
  launch := 0
  port := []
  responses := []

/-- The block has no fault: every error is a response (R210; 93_implementation_defined.md section 2: nothing is
treated as a fault or stuck). No constructor, so that a step can be seen never to end in one (safe). -/
inductive Fault
  deriving DecidableEq, Repr

/-- Why a command is refused by the model. -/
inductive Refusal where
  /-- Raised by `exec` for an instruction that has no meaning yet (safe); no arm raises it now. -/
  | notModelled (mnemonic : String)
  deriving DecidableEq, Repr

/-- How a command ends. -/
abbrev Result := Host.Outcome State Fault Refusal

end Sys2Proof.Machine
end

