-- ==== Sys2Proof/Machine/Flags.lean ====
section
/-! DEFINITION. The flags of the block: the sticky error register `ERR` (spec/10_state.md R29) and the view `STATUS`
(R30). There are no condition codes (R37). -/

namespace Sys2Proof.Machine

/-- The bit of `ERR` that a status sets: bit `k` for the codes 1 to 5, none for `OK` (R29). -/
def errBit : Status → Word
  | .ok => 0
  | .eIllegal => 0x2
  | .eState => 0x4
  | .eArg => 0x8
  | .eSelftest => 0x10
  | .eIo => 0x20

/-- `ERR` after a response with the given status: the bit is set, no bit is cleared (R29, R217). -/
def stickyError (err : Word) (st : Status) : Word := err ||| errBit st

/-- `EV` (R25). -/
def State.ev (s : State) : Bool := s.engine.isSome

/-- `LUT_LEN` (R26). -/
def State.lutLen (s : State) : Nat :=
  match s.engine with
  | none => 0
  | some e => e.lut.length

/-- `STATUS`: bit 0 is `EV`, bits 2:1 are `SS`, the rest are zero (R30). -/
def State.status (s : State) : Word :=
  BitVec.ofNat 64 s.ss.code <<< 1 ||| (BitVec.ofBool s.ev).setWidth 64

end Sys2Proof.Machine
end

