-- ==== Sys2Proof/Machine/Rom.lean ====
section
/-! DEFINITION. The read-only memories of the block: the catalogue `CAT` (spec/45_catalogue_rom.md R191) and the check
message `CHK` (spec/10_state.md R34), and the parameters of this hardware (spec/00_scope.md R4). -/

namespace Sys2Proof.Machine

/-- `CHK[0..8]`, the ASCII codes of "123456789" (R34; log 15). -/
def checkMessage : List Byte := [0x31, 0x32, 0x33, 0x34, 0x35, 0x36, 0x37, 0x38, 0x39]

/-- The parameter set of entries 0 to 2 (R191). -/
def crc32IsoHdlc (strat : Strategy) : Definition where
  bits := 32
  poly := 0x04C11DB7
  init := 0xFFFFFFFF
  refIn := true
  refOut := true
  xorOut := 0xFFFFFFFF
  check := 0xCBF43926
  strat := strat

/-- The parameter set of entries 3 to 5 (R191). -/
def crc64Xz (strat : Strategy) : Definition where
  bits := 64
  poly := 0x42F0E1EBA9EA3693
  init := 0xFFFFFFFFFFFFFFFF
  refIn := true
  refOut := true
  xorOut := 0xFFFFFFFFFFFFFFFF
  check := 0x995DC9BBDF1939FA
  strat := strat

/-- The parameter set of entries 6 to 8 (R191). -/
def crc32Bzip2 (strat : Strategy) : Definition where
  bits := 32
  poly := 0x04C11DB7
  init := 0xFFFFFFFF
  refIn := false
  refOut := false
  xorOut := 0xFFFFFFFF
  check := 0xFC891918
  strat := strat

/-- `CRC-32/ISO-HDLC` (R191; log 15). -/
def nameIsoHdlc : List Byte :=
  [0x43, 0x52, 0x43, 0x2D, 0x33, 0x32, 0x2F, 0x49, 0x53, 0x4F, 0x2D, 0x48, 0x44, 0x4C, 0x43]

/-- `CRC-64/XZ` (R191; log 15). -/
def nameXz : List Byte := [0x43, 0x52, 0x43, 0x2D, 0x36, 0x34, 0x2F, 0x58, 0x5A]

/-- `CRC-32/BZIP2` (R191; log 15). -/
def nameBzip2 : List Byte := [0x43, 0x52, 0x43, 0x2D, 0x33, 0x32, 0x2F, 0x42, 0x5A, 0x49, 0x50, 0x32]

/-- The entry of a definition under a name (R190). -/
def entry (definition : Definition) (name : List Byte)
    (bits_legal : Config.bitsMin ≤ definition.bits.toNat ∧ definition.bits.toNat ≤ Config.bitsMax := by decide)
    (name_length : 1 ≤ name.length ∧ name.length ≤ Config.nameLenMax := by decide)
    (name_ascii : ∀ b ∈ name, b.toNat < 128 := by decide) : CatalogueEntry :=
  ⟨definition, name, bits_legal, name_length, name_ascii⟩

/-- `CAT`: each definition with the strategies in the order Table8, Table4, Bits (R191). -/
def catalogueRom : List CatalogueEntry :=
  [entry (crc32IsoHdlc .table8) nameIsoHdlc, entry (crc32IsoHdlc .table4) nameIsoHdlc,
   entry (crc32IsoHdlc .bits) nameIsoHdlc,
   entry (crc64Xz .table8) nameXz, entry (crc64Xz .table4) nameXz, entry (crc64Xz .bits) nameXz,
   entry (crc32Bzip2 .table8) nameBzip2, entry (crc32Bzip2 .table4) nameBzip2, entry (crc32Bzip2 .bits) nameBzip2]

/-- This hardware: `BUF_BYTES` = 4096 (D18) and the nine-entry catalogue (D20; log 8). -/
def hardware : Params where
  bufBytes := 4096
  catalogue := catalogueRom
  buf_legal := by decide

end Sys2Proof.Machine
end

