-- ==== Sys2Proof/Machine/Operands.lean ====
section
/-! DEFINITION. The operand forms: register indices (spec/10_state.md R35), field selectors of the catalogue
(spec/45_catalogue_rom.md R193), buffer ranges (spec/20_memory.md R75). -/

namespace Sys2Proof.Machine

/-- The eight fields of a definition, by the names of the staging registers (R21). -/
inductive Field where
  | bits
  | poly
  | init
  | refIn
  | refOut
  | xorOut
  | check
  | strat
  deriving DecidableEq, Repr

/-- The four derived registers (R24). -/
inductive Derived where
  | topBit
  | mask
  | crcInit
  | rPoly
  deriving DecidableEq, Repr

/-- The four registers that need no engine and cannot be written (R29, R30, R31). -/
inductive Info where
  | status
  | err
  | catLen
  | bufSz
  deriving DecidableEq, Repr

/-- An assigned register of R35. -/
inductive Reg where
  | staging (f : Field)
  | active (f : Field)
  | derived (d : Derived)
  | info (i : Info)
  deriving DecidableEq, Repr

/-- The place of a field in the order of R21. -/
def Field.index : Field → Nat
  | .bits => 0
  | .poly => 1
  | .init => 2
  | .refIn => 3
  | .refOut => 4
  | .xorOut => 5
  | .check => 6
  | .strat => 7

/-- The field at a place, none above 7 (R21). -/
def Field.ofIndex? : Nat → Option Field
  | 0 => some .bits
  | 1 => some .poly
  | 2 => some .init
  | 3 => some .refIn
  | 4 => some .refOut
  | 5 => some .xorOut
  | 6 => some .check
  | 7 => some .strat
  | _ => none

/-- The index of a register (R35); also its symbolic name in assembly text (R89). -/
def Reg.index : Reg → Nat
  | .staging f => f.index
  | .active f => 0x10 + f.index
  | .derived .topBit => 0x18
  | .derived .mask => 0x19
  | .derived .crcInit => 0x1A
  | .derived .rPoly => 0x1B
  | .info .status => 0x20
  | .info .err => 0x21
  | .info .catLen => 0x22
  | .info .bufSz => 0x23

/-- The register index space (R35): every index not listed is unassigned. -/
def Reg.ofIndex? : Nat → Option Reg
  | 0x00 => some (.staging .bits)
  | 0x01 => some (.staging .poly)
  | 0x02 => some (.staging .init)
  | 0x03 => some (.staging .refIn)
  | 0x04 => some (.staging .refOut)
  | 0x05 => some (.staging .xorOut)
  | 0x06 => some (.staging .check)
  | 0x07 => some (.staging .strat)
  | 0x10 => some (.active .bits)
  | 0x11 => some (.active .poly)
  | 0x12 => some (.active .init)
  | 0x13 => some (.active .refIn)
  | 0x14 => some (.active .refOut)
  | 0x15 => some (.active .xorOut)
  | 0x16 => some (.active .check)
  | 0x17 => some (.active .strat)
  | 0x18 => some (.derived .topBit)
  | 0x19 => some (.derived .mask)
  | 0x1A => some (.derived .crcInit)
  | 0x1B => some (.derived .rPoly)
  | 0x20 => some (.info .status)
  | 0x21 => some (.info .err)
  | 0x22 => some (.info .catLen)
  | 0x23 => some (.info .bufSz)
  | _ => none

/-- The code of a strategy (R22, R89). -/
def strategyCode : Strategy → Nat
  | .bits => 0
  | .table4 => 1
  | .table8 => 2

/-- The strategy of a code; 3 and above cannot be stored (R22). -/
def strategyOf? : Nat → Option Strategy
  | 0 => some .bits
  | 1 => some .table4
  | 2 => some .table8
  | _ => none

/-- A one-bit register as a 64-bit value (R22). -/
def flagWord (b : Bool) : Word := (BitVec.ofBool b).setWidth 64

/-- Reading a field: 64 bits, the unused upper bits zero (R22, R61). -/
def readField (d : Definition) : Field → Word
  | .bits => d.bits.setWidth 64
  | .poly => d.poly
  | .init => d.init
  | .refIn => flagWord d.refIn
  | .refOut => flagWord d.refOut
  | .xorOut => d.xorOut
  | .check => d.check
  | .strat => BitVec.ofNat 64 (strategyCode d.strat)

/-- Writing a field, whole 64-bit value compared: none when the field cannot legally hold it (R22, R153). -/
def writeField? (d : Definition) (f : Field) (v : Word) : Option Definition :=
  match f with
  | .bits =>
    if Config.bitsMin ≤ v.toNat ∧ v.toNat ≤ Config.bitsMax then some { d with bits := v.setWidth 7 } else none
  | .poly => some { d with poly := v }
  | .init => some { d with init := v }
  | .refIn => if v.toNat ≤ 1 then some { d with refIn := v.getLsbD 0 } else none
  | .refOut => if v.toNat ≤ 1 then some { d with refOut := v.getLsbD 0 } else none
  | .xorOut => some { d with xorOut := v }
  | .check => some { d with check := v }
  | .strat =>
    match strategyOf? v.toNat with
    | some st => some { d with strat := st }
    | none => none

/-- Reading a derived register (R24). -/
def readDerived (e : Engine) : Derived → Word
  | .topBit => e.topBit
  | .mask => e.mask
  | .crcInit => e.crcInit
  | .rPoly => e.rPoly

/-- Reading an information register (R29, R30, R31). -/
def readInfo (p : Params) (s : State) : Info → Word
  | .status => s.status
  | .err => s.err
  | .catLen => BitVec.ofNat 64 p.catLen
  | .bufSz => BitVec.ofNat 64 p.bufBytes

/-- What RDCAT can select of an entry (R193). -/
inductive Selector where
  | field (f : Field)
  | nameLen
  | nameChar (j : Nat)
  deriving DecidableEq, Repr

/-- The code of a selector (R193, R89). -/
def Selector.code : Selector → Nat
  | .field f => f.index
  | .nameLen => 8
  | .nameChar j => 0x80 + j

/-- The selector of a code: 0 to 7 the fields, 8 the name's length, 0x80 and above its characters; 0x09 to 0x7F are
unassigned (R193). -/
def Selector.ofCode? (c : Nat) : Option Selector :=
  if c ≤ 7 then (Field.ofIndex? c).map .field
  else if c = 8 then some .nameLen
  else if 0x80 ≤ c then some (.nameChar (c - 0x80))
  else none

/-- One part of a catalogue entry; the name reads as padded with zeros (R193). -/
def readEntry (c : CatalogueEntry) : Selector → Word
  | .field f => readField c.definition f
  | .nameLen => BitVec.ofNat 64 c.name.length
  | .nameChar j => ((c.name[j]?).getD 0).setWidth 64

/-- Entry `i` of the catalogue, none at or above `CATLEN` (R64, R75). -/
def catalogueEntry? (p : Params) (i : Nat) : Option CatalogueEntry := p.catalogue[i]?

/-- The index lies in the buffer (R62, R75). -/
def inBuffer (p : Params) (idx : Nat) : Bool := decide (idx < p.bufBytes)

/-- The chunk of `len` bytes at `off` lies wholly in the buffer; the sum does not wrap (R75, R68). -/
def chunkInBuffer (p : Params) (len off : Nat) : Bool := decide (off + len ≤ p.bufBytes)

end Sys2Proof.Machine
end

