-- ==== Sys2Proof/Machine/Ops.lean ====
section
/-! DEFINITION. The operations every command is built from: reading and writing the buffer (spec/20_memory.md R62,
R65), answering (spec/00_scope.md R7 `respond`, spec/60_exceptions.md R217 `raise`), the two resets
(spec/70_reset_and_hazards.md R240), and looking up the running stream. -/

namespace Sys2Proof.Machine

namespace Memory

/-- The byte written at an address, none when no WRB has written it since hardware reset. -/
def lookup : Memory → Nat → Option Byte
  | [], _ => none
  | (k, b) :: rest, a => if a = k then some b else lookup rest a

/-- Store a byte, keeping the addresses rising. -/
def write : Memory → Nat → Byte → Memory
  | [], a, b => [(a, b)]
  | (k, c) :: rest, a, b =>
    if a < k then (a, b) :: (k, c) :: rest
    else if a = k then (a, b) :: rest
    else (k, c) :: write rest a b

/-- The byte at an address, given what the bytes held at launch. -/
def readWith (launched : Nat → Byte) (m : Memory) (a : Nat) : Byte := (lookup m a).getD (launched a)

/-- Every address of the list lies in `lo .. hi-1`, and they rise. -/
def risesWithin : Nat → Nat → Memory → Bool
  | _, _, [] => true
  | lo, hi, (k, _) :: rest => decide (lo ≤ k) && decide (k < hi) && risesWithin (k + 1) hi rest

/-- The canonical form: addresses strictly rising, all inside the buffer (R62; log 3). -/
def wf (p : Params) (m : Memory) : Bool := risesWithin 0 p.bufBytes m

end Memory

/-- `MemRead(addr, 1)` (R62): the byte last written, else the byte held since hardware reset (R41). -/
def State.memRead (s : State) (a : Nat) : Byte := Memory.readWith (Config.launchByte s.launch) s.buf a

/-- `MemWrite(addr, 1, v)` (R62). -/
def State.memWrite (s : State) (a : Nat) (b : Byte) : State := { s with buf := Memory.write s.buf a b }

/-- The chunk `BUF[off .. off+len-1]`, ascending index order (R65). -/
def State.chunk (s : State) (len off : Nat) : List Byte := (List.range len).map fun i => s.memRead (off + i)

/-- One response leaves the block (R81). -/
def State.answer (s : State) (st : Status) (r : Word) : State := { s with responses := ⟨st, r⟩ :: s.responses }

/-- `respond(v)` (R7): status `OK` and the value. -/
def State.respond (s : State) (v : Word) : Result := .next (s.answer .ok v)

/-- `raise <Status>` (R217): the `ERR` bit is set, the response carries the status and 0, nothing else changes. It is
not a trap, and there is nothing to return from (R210, R220, R221). -/
def State.raise (s : State) (st : Status) : Result := .next ({ s with err := stickyError s.err st }.answer st 0)

/-- The state RST leaves, without its response (R201, R41): everything but `BUF`. -/
def State.softReset (s : State) : State :=
  { s with staging := resetStaging, engine := none, ss := .idle, reg := none, err := 0 }

/-- The state the hardware reset input leaves (R240, R241, R41): as RST, and `BUF` unspecified, which the model takes
as a new set of free bytes (log 4). -/
def State.hardReset (s : State) : State := { s.softReset with buf := [], launch := s.launch + 1 }

/-- The engine and the value of `REG` while a stream runs: none unless `SS = RUNNING` (R27, R28). In a state no run
reaches, RUNNING without an engine or a register value, there is none either (R39, R213; log 6). -/
def State.stream? (s : State) : Option (Engine × Word) :=
  match s.ss, s.engine, s.reg with
  | .running, some e, some c => some (e, c)
  | _, _, _ => none

end Sys2Proof.Machine
end

