-- ==== Sys2Proof/Machine/Buffer.lean ====
section
/-! DEFINITION. WRB and RDB (spec/46_buffer_and_system.md). -/

namespace Sys2Proof.Machine

/-- WRB (R202) in a block with parameters `p`. -/
def execWrbOn (p : Params) (idx : Nat) (b : Byte) (s : State) : Result :=
  if inBuffer p idx then (s.memWrite idx b).respond 0 else s.raise .eArg

/-- WRB of this hardware. -/
def execWrb (idx : Nat) (b : Byte) (s : State) : Result := execWrbOn hardware idx b s

/-- RDB (R203) in a block with parameters `p`. -/
def execRdbOn (p : Params) (idx : Nat) (s : State) : Result :=
  if inBuffer p idx then s.respond ((s.memRead idx).setWidth 64) else s.raise .eArg

/-- RDB of this hardware. -/
def execRdb (idx : Nat) (s : State) : Result := execRdbOn hardware idx s

end Sys2Proof.Machine
end

