-- ==== Sys2Proof/Machine/Catalogue.lean ====
section
/-! DEFINITION. LDCAT and RDCAT (spec/45_catalogue_rom.md). -/

namespace Sys2Proof.Machine

/-- LDCAT (R192) in a block with parameters `p`. -/
def execLdcatOn (p : Params) (i : Nat) (s : State) : Result :=
  match catalogueEntry? p i with
  | none => s.raise .eArg
  | some c => { s with staging := c.definition }.respond 0

/-- LDCAT of this hardware. -/
def execLdcat (i : Nat) (s : State) : Result := execLdcatOn hardware i s

/-- RDCAT (R193) in a block with parameters `p`. -/
def execRdcatOn (p : Params) (entry sel : Nat) (s : State) : Result :=
  match catalogueEntry? p entry with
  | none => s.raise .eArg
  | some c =>
    match Selector.ofCode? sel with
    | none => s.raise .eArg
    | some x => s.respond (readEntry c x)

/-- RDCAT of this hardware. -/
def execRdcat (entry sel : Nat) (s : State) : Result := execRdcatOn hardware entry sel s

end Sys2Proof.Machine
end

