-- ==== Sys2Proof/Machine/Divider.lean ====
section
/-! DEFINITION. The bit-reflection unit (spec/40_reflect.md), the bit-serial divider and the raw byte processor
(spec/41_bitserial_divider.md). -/

namespace Sys2Proof.Machine

/-- The loop of R100: `n` times, the next low bit of `v` is shifted into `r`. -/
def reflectLoop : Nat → Word → Word → Word
  | 0, r, _ => r
  | n + 1, r, v => reflectLoop n ((r <<< 1) ||| (v &&& 1)) (v >>> 1)

/-- `reflect(v, n)` (R100). -/
def reflect (v : Word) (n : Nat) : Word := reflectLoop n 0 v

/-- `E_BITS` as a number. -/
def Engine.width (e : Engine) : Nat := e.bits.toNat

/-- The normal-mode divider step (R110; masked at every step, log 11). -/
def stepN (e : Engine) (c : Word) (d : Bool) : Word :=
  let shifted := (c <<< 1) &&& e.mask
  if (c.getLsbD (e.width - 1)) ^^ d then shifted ^^^ e.poly else shifted

/-- The reflected-mode divider step (R111). -/
def stepR (e : Engine) (c : Word) (d : Bool) : Word :=
  let shifted := c >>> 1
  if (c.getLsbD 0) ^^ d then shifted ^^^ e.rPoly else shifted

/-- The bits of a byte or nibble, least significant first (R66, reflected mode). -/
def lsbFirst {w : Nat} (x : BitVec w) : List Bool := (List.range w).map x.getLsbD

/-- The bits of a byte or nibble, most significant first (R66, normal mode). -/
def msbFirst {w : Nat} (x : BitVec w) : List Bool := (lsbFirst x).reverse

/-- The normal divider fed with the bits of `x` from the register value `c`. -/
def feedN {w : Nat} (e : Engine) (c : Word) (x : BitVec w) : Word := (msbFirst x).foldl (stepN e) c

/-- The reflected divider fed with the bits of `x` from the register value `c`. -/
def feedR {w : Nat} (e : Engine) (c : Word) (x : BitVec w) : Word := (lsbFirst x).foldl (stepR e) c

/-- `rawN(b)` (R113). -/
def rawN (e : Engine) (b : Byte) : Word := feedN e 0 b

/-- `rawR(b)` (R114). -/
def rawR (e : Engine) (b : Byte) : Word := feedR e 0 b

/-- `raw(b)` (R115). -/
def raw (e : Engine) (b : Byte) : Word := if e.refIn then rawR e b else rawN e b

/-- The merge of a message byte with the register (R116, R134): `T` is the raw byte processor or the 8-bit table. -/
def mergeByte (e : Engine) (T : Byte → Word) (c : Word) (b : Byte) : Word :=
  if e.refIn then (c >>> 8) ^^^ T (c.setWidth 8 ^^^ b)
  else if 8 < e.width then ((c <<< 8) &&& e.mask) ^^^ T ((c >>> (e.width - 8)).setWidth 8 ^^^ b)
  else T ((c <<< (8 - e.width)).setWidth 8 ^^^ b)

/-- `updBits(c, b)` (R116). -/
def updBits (e : Engine) (c : Word) (b : Byte) : Word := mergeByte e (raw e) c b

end Sys2Proof.Machine
end

