-- ==== Sys2Proof/Machine/Tables.lean ====
section
/-! DEFINITION. The lookup-table generators and the updates through a table (spec/42_lut_generators.md). -/

namespace Sys2Proof.Machine

/-- `nibN(k)` (R131). -/
def nibN (e : Engine) (k : Nibble) : Word := feedN e 0 k

/-- `nibR(k)` (R131). -/
def nibR (e : Engine) (k : Nibble) : Word := feedR e 0 k

/-- `nib(k)` (R131). -/
def nib (e : Engine) (k : Nibble) : Word := if e.refIn then nibR e k else nibN e k

/-- The table of the engine's strategy (R130): none for Bits, the 4-bit table (R133), the 8-bit table (R132). -/
def buildTable (e : Engine) : List Word :=
  match e.strat with
  | .bits => []
  | .table4 => (List.range Config.lut4Len).map fun k => nib e (BitVec.ofNat 4 k)
  | .table8 => (List.range Config.lut8Len).map fun k => raw e (BitVec.ofNat 8 k)

/-- `LUT[k]` as the updates read it (R63); the free value at an index without a value is read in no state that a run
reaches (log 7). -/
def lutEntry (e : Engine) (k : Nat) : Word := (e.lut[k]?).getD (Config.absentEntry k)

/-- `updT8(c, b)` (R134). -/
def updT8 (e : Engine) (c : Word) (b : Byte) : Word := mergeByte e (fun k => lutEntry e k.toNat) c b

/-- `n4(c, n)` (R135). -/
def n4 (e : Engine) (c : Word) (n : Nibble) : Word :=
  if e.refIn then (c >>> 4) ^^^ lutEntry e (c.setWidth 4 ^^^ n).toNat
  else if 4 < e.width then
    ((c <<< 4) &&& e.mask) ^^^ lutEntry e ((c >>> (e.width - 4)).setWidth 4 ^^^ n).toNat
  else lutEntry e ((c <<< (4 - e.width)).setWidth 4 ^^^ n).toNat

/-- The high nibble `b[7:4]`. -/
def highNibble (b : Byte) : Nibble := b.extractLsb' 4 4

/-- The low nibble `b[3:0]`. -/
def lowNibble (b : Byte) : Nibble := b.extractLsb' 0 4

/-- `updT4(c, b)` (R135): low nibble first in reflected mode, high nibble first in normal mode. -/
def updT4 (e : Engine) (c : Word) (b : Byte) : Word :=
  if e.refIn then n4 e (n4 e c (lowNibble b)) (highNibble b)
  else n4 e (n4 e c (highNibble b)) (lowNibble b)

end Sys2Proof.Machine
end

