-- ==== Sys2Proof/Machine/Engine.lean ====
section
/-! DEFINITION. What CONS builds (spec/43_definition_registers.md R158) and the functions the engine commands are made
of (spec/44_engine_compute.md R170, R175, R177). -/

namespace Sys2Proof.Machine

/-- `E_TOPBIT` (R24). -/
def topBitOf (bits : Nat) : Word := 1 <<< (bits - 1)

/-- `E_MASK` (R24). -/
def maskOf (bits : Nat) : Word := ((topBitOf bits - 1) <<< 1) ||| 1

/-- The active and derived registers CONS sets from the staged definition (R158, R24), before the table is built. -/
def latch (d : Definition) : Engine :=
  let bits := d.bits.toNat
  let mask := maskOf bits
  let poly := d.poly &&& mask
  let init := d.init &&& mask
  { bits := d.bits
    poly := poly
    init := init
    refIn := d.refIn
    refOut := d.refOut
    xorOut := d.xorOut &&& mask
    check := d.check
    strat := d.strat
    topBit := topBitOf bits
    mask := mask
    crcInit := if d.refIn then reflect init bits else init
    rPoly := reflect poly bits
    lut := [] }

/-- The engine CONS constructs (R158): the latched registers, and the table computed with them. -/
def construct (d : Definition) : Engine := { latch d with lut := buildTable (latch d) }

/-- `upd(c, b)` (R170). -/
def upd (e : Engine) (c : Word) (b : Byte) : Word :=
  match e.strat with
  | .bits => updBits e c b
  | .table4 => updT4 e c b
  | .table8 => updT8 e c b

/-- `updMsg(c, m)` (R170). -/
def updMsg (e : Engine) (c : Word) (m : List Byte) : Word := m.foldl (upd e) c

/-- `fin(c)` (R175). -/
def fin (e : Engine) (c : Word) : Word :=
  let reflected := if e.refOut ≠ e.refIn then reflect c e.width else c
  (reflected ^^^ e.xorOut) &&& e.mask

/-- The checksum of a message from a private temporary (R176). -/
def checksum (e : Engine) (m : List Byte) : Word := fin e (updMsg e e.crcInit m)

end Sys2Proof.Machine
end

