-- ==== Sys2Proof/Machine/OneShot.lean ====
section
/-! DEFINITION. The one-shot commands COMPUTE, GETCHK, CHECK (spec/44_engine_compute.md). -/

namespace Sys2Proof.Machine

/-- COMPUTE (R176) in a block with parameters `p`: neither `REG` nor `SS` is read or written. -/
def execComputeOn (p : Params) (len off : Nat) (s : State) : Result :=
  match s.engine with
  | none => s.raise .eState
  | some e =>
    if chunkInBuffer p len off then s.respond (checksum e (s.chunk len off)) else s.raise .eArg

/-- COMPUTE of this hardware. -/
def execCompute (len off : Nat) (s : State) : Result := execComputeOn hardware len off s

/-- GETCHK (R177). -/
def execGetchk (s : State) : Result :=
  match s.engine with
  | none => s.raise .eState
  | some e => s.respond (checksum e checkMessage)

/-- CHECK (R178): the comparison is on all 64 bits. -/
def execCheck (s : State) : Result :=
  match s.engine with
  | none => s.raise .eState
  | some e =>
    if checksum e checkMessage ≠ e.check then s.raise .eSelftest else s.respond (checksum e checkMessage)

end Sys2Proof.Machine
end

