-- ==== Sys2Proof/Machine/Registers.lean ====
section
/-! DEFINITION. WRD, RDR and CONS (spec/43_definition_registers.md). -/

namespace Sys2Proof.Machine

/-- WRD (R153): only the staging registers are writable, and only with a value the register can hold. -/
def execWrd (reg : Nat) (v : Word) (s : State) : Result :=
  match Reg.ofIndex? reg with
  | some (.staging f) =>
    match writeField? s.staging f v with
    | some d => { s with staging := d }.respond 0
    | none => s.raise .eArg
  | _ => s.raise .eArg

/-- RDR (R154) in a block with parameters `p`, which `CATLEN` and `BUFSZ` show (R31). -/
def execRdrOn (p : Params) (reg : Nat) (s : State) : Result :=
  match Reg.ofIndex? reg with
  | none => s.raise .eArg
  | some (.staging f) => s.respond (readField s.staging f)
  | some (.active f) =>
    match s.engine with
    | none => s.raise .eState
    | some e => s.respond (readField e.toDefinition f)
  | some (.derived d) =>
    match s.engine with
    | none => s.raise .eState
    | some e => s.respond (readDerived e d)
  | some (.info i) => s.respond (readInfo p s i)

/-- RDR of this hardware. -/
def execRdr (reg : Nat) (s : State) : Result := execRdrOn hardware reg s

/-- CONS (R158). `REG` is not written (log 9). -/
def execCons (s : State) : Result :=
  if s.staging.bits.toNat < Config.bitsMin ∨ Config.bitsMax < s.staging.bits.toNat then s.raise .eArg
  else { s with engine := some (construct s.staging), ss := .idle }.respond 0

end Sys2Proof.Machine
end

