-- ==== Sys2Proof/Machine/Stream.lean ====
section
/-! DEFINITION. The streaming commands BEGIN, UPD, UPDB, FINAL (spec/44_engine_compute.md). -/

namespace Sys2Proof.Machine

/-- BEGIN (R171). -/
def execBegin (s : State) : Result :=
  match s.engine with
  | none => s.raise .eState
  | some e => { s with reg := some e.crcInit, ss := .running }.respond 0

/-- UPD (R172) in a block with parameters `p`. -/
def execUpdOn (p : Params) (len off : Nat) (s : State) : Result :=
  match s.stream? with
  | none => s.raise .eState
  | some (e, c) =>
    if chunkInBuffer p len off then { s with reg := some (updMsg e c (s.chunk len off)) }.respond 0
    else s.raise .eArg

/-- UPD of this hardware. -/
def execUpd (len off : Nat) (s : State) : Result := execUpdOn hardware len off s

/-- UPDB (R173). -/
def execUpdb (b : Byte) (s : State) : Result :=
  match s.stream? with
  | none => s.raise .eState
  | some (e, c) => { s with reg := some (upd e c b) }.respond 0

/-- FINAL (R174): `REG` keeps its value. -/
def execFinal (s : State) : Result :=
  match s.stream? with
  | none => s.raise .eState
  | some (e, c) => { s with ss := .spent }.respond (fin e c)

end Sys2Proof.Machine
end

