-- ==== Sys2Proof/Machine/System.lean ====
section
/-! DEFINITION. NOP and RST (spec/46_buffer_and_system.md). -/

namespace Sys2Proof.Machine

/-- NOP (R200). -/
def execNop (s : State) : Result := s.respond 0

/-- RST (R201). -/
def execRst (s : State) : Result := s.softReset.respond 0

end Sys2Proof.Machine
end

