-- ==== Sys2Proof/Machine/Units.lean ====
section
/-! DEFINITION. The commands that give the host one unit of the block: REFL (spec/40_reflect.md), RAWB
(spec/41_bitserial_divider.md), RDLUT (spec/42_lut_generators.md). -/

namespace Sys2Proof.Machine

/-- REFL (R102). -/
def execRefl (n : Nat) (v : Word) (s : State) : Result :=
  if 64 < n then s.raise .eArg else s.respond (reflect v n)

/-- RAWB (R120): the bit-serial processor whatever the strategy. -/
def execRawb (b : Byte) (s : State) : Result :=
  match s.engine with
  | none => s.raise .eState
  | some e => s.respond (raw e b)

/-- RDLUT (R137). -/
def execRdlut (k : Nat) (s : State) : Result :=
  match s.engine with
  | none => s.raise .eState
  | some e =>
    match e.lut[k]? with
    | none => s.raise .eArg
    | some x => s.respond x

end Sys2Proof.Machine
end

