-- ==== Sys2Proof/Machine/Dispatch.lean ====
section
/-! DEFINITION. One arm per command (spec/30_encoding.md R84), each one call of its meaning. -/

namespace Sys2Proof.Machine

def exec (i : Instr) (s : State) : Host.Outcome State Fault Refusal :=
  match i with
  | .nop => Sys2Proof.Machine.execNop s
  | .rst => Sys2Proof.Machine.execRst s
  | .wrd reg v => Sys2Proof.Machine.execWrd reg v s
  | .rdr reg => Sys2Proof.Machine.execRdr reg s
  | .cons => Sys2Proof.Machine.execCons s
  | .refl n v => Sys2Proof.Machine.execRefl n v s
  | .rawb b => Sys2Proof.Machine.execRawb b s
  | .rdlut k => Sys2Proof.Machine.execRdlut k s
  | .begin => Sys2Proof.Machine.execBegin s
  | .upd len off => Sys2Proof.Machine.execUpd len off s
  | .updb b => Sys2Proof.Machine.execUpdb b s
  | .final => Sys2Proof.Machine.execFinal s
  | .compute len off => Sys2Proof.Machine.execCompute len off s
  | .getchk => Sys2Proof.Machine.execGetchk s
  | .check => Sys2Proof.Machine.execCheck s
  | .ldcat k => Sys2Proof.Machine.execLdcat k s
  | .rdcat entry sel => Sys2Proof.Machine.execRdcat entry sel s
  | .wrb idx b => Sys2Proof.Machine.execWrb idx b s
  | .rdb idx => Sys2Proof.Machine.execRdb idx s

end Sys2Proof.Machine
end

