-- ==== Sys2Proof/WellFormed.lean ====
section
/-! DEFINITION. When a command term fits its operand fields (spec/30_encoding.md R80, R83, R84). -/

namespace Sys2Proof

/-- `n` fits the 16-bit field `a`, or the part `v[15:0]` of `v` (R80, R83). -/
def fits16 (n : Nat) : Bool := decide (n < 2 ^ 16)

/-- `n` fits one of the two bytes `a[15:8]`, `a[7:0]` of the field `a` (R83, R193). -/
def fits8 (n : Nat) : Bool := decide (n < 2 ^ 8)

/-- A command is well formed when every numeric operand fits the field R84 gives it. Whether the value is one the
command accepts is not decided here: that is the command's own check (R214). -/
def Instr.wellFormed : Instr → Bool
  | .nop => true
  | .rst => true
  | .wrd reg _ => fits16 reg
  | .rdr reg => fits16 reg
  | .cons => true
  | .refl n _ => fits16 n
  | .rawb _ => true
  | .rdlut k => fits16 k
  | .begin => true
  | .upd len off => fits16 len && fits16 off
  | .updb _ => true
  | .final => true
  | .compute len off => fits16 len && fits16 off
  | .getchk => true
  | .check => true
  | .ldcat i => fits16 i
  | .rdcat entry sel => fits8 entry && fits8 sel
  | .wrb idx _ => fits16 idx
  | .rdb idx => fits16 idx

end Sys2Proof
end

