-- ==== Sys2Proof/Decode.lean ====
section
/-! DEFINITION. Decoding a command word (spec/30_encoding.md R80, R82 to R86), encoding one, and the response
word (R81). -/

namespace Sys2Proof

/-- Field `op` of a command word, bits 95:88 (R80). -/
def opField (w : CommandWord) : Byte := w.extractLsb' 88 8

/-- Field `rsv`, bits 87:80 (R80). -/
def rsvField (w : CommandWord) : Byte := w.extractLsb' 80 8

/-- Field `a`, bits 79:64 (R80). -/
def aField (w : CommandWord) : BitVec 16 := w.extractLsb' 64 16

/-- Field `v`, bits 63:0 (R80). -/
def vField (w : CommandWord) : Word := w.extractLsb' 0 64

/-- `v[15:0]` as a number: the offset of UPD and COMPUTE (R84). -/
def offsetOf (v : Word) : Nat := (v.setWidth 16).toNat

/-- The command an opcode names (R84), with the operands it uses of `a` and `v`; the other bits are ignored (R83).
No answer for the 237 undefined opcodes (R85). -/
def commandOf (op : Byte) (a : BitVec 16) (v : Word) : Option Instr :=
  match op.toNat with
  | 0x00 => some .nop
  | 0x01 => some .rst
  | 0x02 => some (.wrd a.toNat v)
  | 0x03 => some (.rdr a.toNat)
  | 0x04 => some .cons
  | 0x08 => some (.refl a.toNat v)
  | 0x09 => some (.rawb (a.setWidth 8))
  | 0x0A => some (.rdlut a.toNat)
  | 0x10 => some .begin
  | 0x11 => some (.upd a.toNat (offsetOf v))
  | 0x12 => some (.updb (a.setWidth 8))
  | 0x13 => some .final
  | 0x14 => some (.compute a.toNat (offsetOf v))
  | 0x15 => some .getchk
  | 0x16 => some .check
  | 0x18 => some (.ldcat a.toNat)
  | 0x19 => some (.rdcat (a.extractLsb' 8 8).toNat (a.extractLsb' 0 8).toNat)
  | 0x1C => some (.wrb a.toNat (v.setWidth 8))
  | 0x1D => some (.rdb a.toNat)
  | _ => none

/-- The decode procedure of R82, total on all words: `rsv` first, then the opcode. -/
def decode (w : CommandWord) : Except IllegalWord Instr :=
  if rsvField w ≠ 0 then .error (.reservedNotZero (rsvField w))
  else match commandOf (opField w) (aField w) (vField w) with
    | some i => .ok i
    | none => .error (.undefinedOpcode (opField w))

/-- The opcode of a command (R84). -/
def Instr.opcode : Instr → Byte
  | .nop => 0x00
  | .rst => 0x01
  | .wrd _ _ => 0x02
  | .rdr _ => 0x03
  | .cons => 0x04
  | .refl _ _ => 0x08
  | .rawb _ => 0x09
  | .rdlut _ => 0x0A
  | .begin => 0x10
  | .upd _ _ => 0x11
  | .updb _ => 0x12
  | .final => 0x13
  | .compute _ _ => 0x14
  | .getchk => 0x15
  | .check => 0x16
  | .ldcat _ => 0x18
  | .rdcat _ _ => 0x19
  | .wrb _ _ => 0x1C
  | .rdb _ => 0x1D

/-- The field `a` an assembler writes (R83, R87): zeros in every ignored bit. -/
def Instr.aOperand : Instr → BitVec 16
  | .nop => 0
  | .rst => 0
  | .wrd reg _ => BitVec.ofNat 16 reg
  | .rdr reg => BitVec.ofNat 16 reg
  | .cons => 0
  | .refl n _ => BitVec.ofNat 16 n
  | .rawb b => b.setWidth 16
  | .rdlut k => BitVec.ofNat 16 k
  | .begin => 0
  | .upd len _ => BitVec.ofNat 16 len
  | .updb b => b.setWidth 16
  | .final => 0
  | .compute len _ => BitVec.ofNat 16 len
  | .getchk => 0
  | .check => 0
  | .ldcat i => BitVec.ofNat 16 i
  | .rdcat entry sel => BitVec.ofNat 8 entry ++ BitVec.ofNat 8 sel
  | .wrb idx _ => BitVec.ofNat 16 idx
  | .rdb idx => BitVec.ofNat 16 idx

/-- The field `v` an assembler writes (R83, R87). -/
def Instr.vOperand : Instr → Word
  | .nop => 0
  | .rst => 0
  | .wrd _ v => v
  | .rdr _ => 0
  | .cons => 0
  | .refl _ v => v
  | .rawb _ => 0
  | .rdlut _ => 0
  | .begin => 0
  | .upd _ off => (BitVec.ofNat 16 off).setWidth 64
  | .updb _ => 0
  | .final => 0
  | .compute _ off => (BitVec.ofNat 16 off).setWidth 64
  | .getchk => 0
  | .check => 0
  | .ldcat _ => 0
  | .rdcat _ _ => 0
  | .wrb _ b => b.setWidth 64
  | .rdb _ => 0

/-- A command word from its fields (R80). -/
def commandWord (op rsv : Byte) (a : BitVec 16) (v : Word) : CommandWord := op ++ rsv ++ a ++ v

/-- The word of a command. -/
def encode (i : Instr) : CommandWord := commandWord i.opcode 0 i.aOperand i.vOperand

/-- The response word of R81: bits 71:68 zero, the status code in 67:64, the value in 63:0. -/
def Response.encode (q : Response) : ResponseWord := (0 : BitVec 4) ++ BitVec.ofNat 4 q.st.code ++ q.r

/-- The command word a table row's bits stand for (log 14): a row has at most the 96 bits of R86, bit 0 is bit 0 of
the word (R80), and bits at or above `nbits` are zero. -/
def tableWord (nbits w : Nat) : CommandWord := BitVec.ofNat 96 (w % 2 ^ nbits)

/-- The instruction the decoder reads from an opcode-table word of `nbits` bits. -/
def decodeTableWord (nbits w : Nat) : Option Instr :=
  match decode (tableWord nbits w) with
  | .ok i => some i
  | .error _ => none

end Sys2Proof
end

