-- ==== Sys2Proof/Machine/Port.lean ====
section
/-! DEFINITION. What a step takes from the command port before it runs a command, and what it does with it (spec/00_scope.md R9,
spec/30_encoding.md R80, R82). -/

namespace Sys2Proof.Machine

/-- What a step finds at the port. -/
inductive Taken where
  /-- Nothing is presented. -/
  | idle
  /-- The hardware reset input (R240). -/
  | hardReset
  /-- A command word that decodes (R82 step 3). -/
  | run (i : Instr)
  /-- A command word that does not (R82 steps 1 and 2, R85). -/
  | illegal (why : IllegalWord)
  deriving DecidableEq, Repr

/-- The oldest input presented, decoded. -/
def State.takes (s : State) : Taken :=
  match s.port with
  | [] => .idle
  | .hardReset :: _ => .hardReset
  | .command w :: _ =>
    match decode w with
    | .ok i => .run i
    | .error why => .illegal why

/-- The state with that input taken from the port. -/
def State.popPort (s : State) : State := { s with port := s.port.tail }

/-- The state with one more command word presented, to be taken next (log 14). -/
def State.present (s : State) (w : CommandWord) : State := { s with port := .command w :: s.port }

/-- An illegal command (R85, R212): `E_ILLEGAL`, whichever the reason. -/
def State.rejectIllegal (s : State) (_why : IllegalWord) : Result := s.raise .eIllegal

/-- One step of a block whose commands act as `run`: the oldest input is taken and carried out completely (R9, R70).
With nothing presented the block does nothing (R9, R36; log 1). -/
def stepWith (run : Instr → State → Result) (s : State) : Result :=
  match s.takes with
  | .idle => .next s
  | .hardReset => .next s.popPort.hardReset
  | .run i => run i s.popPort
  | .illegal why => s.popPort.rejectIllegal why

end Sys2Proof.Machine
end

