-- ==== Sys2Proof/Machine/Assembler.lean ====
section
/-! DEFINITION. The assembly text and the pseudo-commands (spec/30_encoding.md R87, R88). The symbolic operand names of
R89 are `Reg.index`, `strategyCode` and `Selector.code`. -/

namespace Sys2Proof.Machine

/-- The mnemonic of a command (R84). -/
def mnemonic : Instr → String
  | .nop => "NOP"
  | .rst => "RST"
  | .wrd _ _ => "WRD"
  | .rdr _ => "RDR"
  | .cons => "CONS"
  | .refl _ _ => "REFL"
  | .rawb _ => "RAWB"
  | .rdlut _ => "RDLUT"
  | .begin => "BEGIN"
  | .upd _ _ => "UPD"
  | .updb _ => "UPDB"
  | .final => "FINAL"
  | .compute _ _ => "COMPUTE"
  | .getchk => "GETCHK"
  | .check => "CHECK"
  | .ldcat _ => "LDCAT"
  | .rdcat _ _ => "RDCAT"
  | .wrb _ _ => "WRB"
  | .rdb _ => "RDB"

/-- The operands of a command in the order they are written (R87). -/
def writtenOperands : Instr → List Nat
  | .nop => []
  | .rst => []
  | .wrd reg v => [reg, v.toNat]
  | .rdr reg => [reg]
  | .cons => []
  | .refl n v => [n, v.toNat]
  | .rawb b => [b.toNat]
  | .rdlut k => [k]
  | .begin => []
  | .upd len off => [len, off]
  | .updb b => [b.toNat]
  | .final => []
  | .compute len off => [len, off]
  | .getchk => []
  | .check => []
  | .ldcat i => [i]
  | .rdcat entry sel => [entry, sel]
  | .wrb idx b => [idx, b.toNat]
  | .rdb idx => [idx]

/-- A command as text: `MNEMONIC`, `MNEMONIC a` or `MNEMONIC a, v`, operands in decimal (R87; log 13). -/
def assemblyText (i : Instr) : String :=
  match writtenOperands i with
  | [] => mnemonic i
  | xs => mnemonic i ++ " " ++ String.intercalate ", " (xs.map toString)

/-- The hexadecimal digit of a number below 16, upper case (R80). -/
def hexDigit (n : Nat) : Char := if n < 10 then Char.ofNat (0x30 + n) else Char.ofNat (0x41 + (n - 10))

/-- A command word as 24 hexadecimal digits, most significant first (R80). -/
def hexWord (w : CommandWord) : String :=
  String.ofList ((List.range 24).map fun k => hexDigit (w.extractLsb' (4 * (23 - k)) 4).toNat)

/-- A line of a listing: `position: 24-hex-digit word  MNEMONIC operands` (R87). -/
def listingLine (position : Nat) (i : Instr) : String :=
  toString position ++ ": " ++ hexWord (encode i) ++ "  " ++ assemblyText i

/-- `DEFINE bits, poly, init, refin, refout, xorout, check, strat` (R88). -/
def pseudoDefine (bits poly init refin refout xorout check strat : Word) : List Instr :=
  [.wrd 0 bits, .wrd 1 poly, .wrd 2 init, .wrd 3 refin, .wrd 4 refout, .wrd 5 xorout, .wrd 6 check, .wrd 7 strat]

/-- `LOADMSG off, b0, b1, ...` (R88). -/
def pseudoLoadmsg : Nat → List Byte → List Instr
  | _, [] => []
  | off, b :: rest => .wrb off b :: pseudoLoadmsg (off + 1) rest

/-- `STREAM len, off` (R88). -/
def pseudoStream (len off : Nat) : List Instr := [.begin, .upd len off, .final]

end Sys2Proof.Machine
end

