-- ==== Sys2Proof/Machine/Block.lean ====
section
/-! DEFINITION. The block with parameters of its own (spec/00_scope.md R4, spec/10_state.md R42): the same commands and
the same step, for any legal buffer size and catalogue. This hardware is the case `hardware` (`exec_eq_execOn`,
`step_eq_stepOn` in Sys2Proof/Laws/Block.lean). -/

namespace Sys2Proof.Machine

/-- What a command does in a block with parameters `p`. -/
def execOn (p : Params) (i : Instr) (s : State) : Result :=
  match i with
  | .nop => execNop s
  | .rst => execRst s
  | .wrd reg v => execWrd reg v s
  | .rdr reg => execRdrOn p reg s
  | .cons => execCons s
  | .refl n v => execRefl n v s
  | .rawb b => execRawb b s
  | .rdlut k => execRdlut k s
  | .begin => execBegin s
  | .upd len off => execUpdOn p len off s
  | .updb b => execUpdb b s
  | .final => execFinal s
  | .compute len off => execComputeOn p len off s
  | .getchk => execGetchk s
  | .check => execCheck s
  | .ldcat k => execLdcatOn p k s
  | .rdcat entry sel => execRdcatOn p entry sel s
  | .wrb idx b => execWrbOn p idx b s
  | .rdb idx => execRdbOn p idx s

/-- One step of a block with parameters `p`. -/
def stepOn (p : Params) (s : State) : Result := stepWith (execOn p) s

end Sys2Proof.Machine
end

