-- ==== Sys2Proof/Safety.lean ====
section
/-! DEFINITION. The terms the claims are stated in: the invariant of the state, what a response leaves alone, when the
spec says a command raises a status, runs of commands. No meaning uses them. -/

namespace Sys2Proof.Machine

/-- An engine that CONS can have built (spec/43_definition_registers.md R158): a legal width, and every register and
table entry as CONS computes them from the active definition. -/
structure Engine.Wf (e : Engine) : Prop where
  width_pos : 1 ≤ e.width
  width_le : e.width ≤ 64
  constructed : construct e.toDefinition = e

/-- The invariant of a block with parameters `p`. -/
structure State.InvOn (p : Params) (s : State) : Prop where
  /-- `D_BITS` holds 0 to 64 (R22). -/
  staging_bits : s.staging.bits.toNat ≤ 64
  /-- The active engine is one CONS built (R23, R24, R26). -/
  engine_wf : ∀ e, s.engine = some e → e.Wf
  /-- `SS` other than IDLE needs an engine (R39), and then `REG` holds a value (R27, R40). -/
  stream_has : s.ss ≠ .idle → s.engine.isSome = true ∧ s.reg.isSome = true
  /-- `REG <= E_MASK` while RUNNING (R27, R38). -/
  reg_masked : s.ss = .running → ∀ e c, s.engine = some e → s.reg = some c → c ≤ e.mask
  /-- The bits of `ERR` other than 1 to 4 read as zero (R29, R215). -/
  err_reserved : ∀ k, k = 0 ∨ 5 ≤ k → s.err.getLsbD k = false
  /-- The buffer's list is in canonical form, inside `BUF_BYTES` (R62). -/
  buf_wf : Memory.wf p s.buf = true

/-- The invariant of this hardware. -/
abbrev State.Inv (s : State) : Prop := s.InvOn hardware

/-- `s` after a response `OK` with value `r` and no other change. -/
def answered (s : State) (r : Word) : State := { s with responses := ⟨.ok, r⟩ :: s.responses }

/-- `s` after a failed command with status `st` (R217): response value 0, bit `st` of `ERR` set, no other change. -/
def failed (s : State) (st : Status) : State :=
  { s with err := s.err ||| (1 <<< st.code), responses := ⟨st, 0⟩ :: s.responses }

/-- The opcodes of R84. -/
def definedOpcodes : List Byte :=
  [0x00, 0x01, 0x02, 0x03, 0x04, 0x08, 0x09, 0x0A, 0x10, 0x11, 0x12, 0x13, 0x14, 0x15, 0x16, 0x18, 0x19, 0x1C, 0x1D]

/-- The bits of the word a command reads (R83, R84): `op` and `rsv` always, and the operand bits it uses. -/
def usedBits : Instr → CommandWord
  | .nop => 0xFFFF00000000000000000000
  | .rst => 0xFFFF00000000000000000000
  | .wrd _ _ => 0xFFFFFFFFFFFFFFFFFFFFFFFF
  | .rdr _ => 0xFFFFFFFF0000000000000000
  | .cons => 0xFFFF00000000000000000000
  | .refl _ _ => 0xFFFFFFFFFFFFFFFFFFFFFFFF
  | .rawb _ => 0xFFFF00FF0000000000000000
  | .rdlut _ => 0xFFFFFFFF0000000000000000
  | .begin => 0xFFFF00000000000000000000
  | .upd _ _ => 0xFFFFFFFF000000000000FFFF
  | .updb _ => 0xFFFF00FF0000000000000000
  | .final => 0xFFFF00000000000000000000
  | .compute _ _ => 0xFFFFFFFF000000000000FFFF
  | .getchk => 0xFFFF00000000000000000000
  | .check => 0xFFFF00000000000000000000
  | .ldcat _ => 0xFFFFFFFF0000000000000000
  | .rdcat _ _ => 0xFFFFFFFF0000000000000000
  | .wrb _ _ => 0xFFFFFFFF00000000000000FF
  | .rdb _ => 0xFFFFFFFF0000000000000000

/-- The conditions for `E_STATE`, the complete list of R213. -/
def NeedsOtherState : Instr → State → Prop
  | .rdr a, s => 0x10 ≤ a ∧ a ≤ 0x1B ∧ s.engine = none
  | .rawb _, s => s.engine = none
  | .rdlut _, s => s.engine = none
  | .begin, s => s.engine = none
  | .compute _ _, s => s.engine = none
  | .getchk, s => s.engine = none
  | .check, s => s.engine = none
  | .upd _ _, s => s.ss ≠ .running
  | .updb _, s => s.ss ≠ .running
  | .final, s => s.ss ≠ .running
  | .nop, _ => False
  | .rst, _ => False
  | .wrd _ _, _ => False
  | .cons, _ => False
  | .refl _ _, _ => False
  | .ldcat _, _ => False
  | .rdcat _ _, _ => False
  | .wrb _ _, _ => False
  | .rdb _, _ => False

/-- The conditions for `E_ARG` in a block with parameters `p`, the complete list of R214. -/
def BadOperandOn (p : Params) : Instr → State → Prop
  | .wrd a v, _ =>
    7 < a ∨ (a = 0 ∧ ¬ (1 ≤ v.toNat ∧ v.toNat ≤ 64)) ∨ ((a = 3 ∨ a = 4) ∧ 1 < v.toNat) ∨ (a = 7 ∧ 2 < v.toNat)
  | .rdr a, _ => ¬ (a ≤ 0x07 ∨ (0x10 ≤ a ∧ a ≤ 0x1B) ∨ (0x20 ≤ a ∧ a ≤ 0x23))
  | .cons, s => s.staging.bits = 0
  | .refl n _, _ => 64 < n
  | .rdlut k, s => s.lutLen ≤ k
  | .upd len off, _ => p.bufBytes < off + len
  | .compute len off, _ => p.bufBytes < off + len
  | .ldcat i, _ => p.catLen ≤ i
  | .rdcat entry sel, _ => p.catLen ≤ entry ∨ (0x09 ≤ sel ∧ sel ≤ 0x7F)
  | .wrb idx _, _ => p.bufBytes ≤ idx
  | .rdb idx, _ => p.bufBytes ≤ idx
  | .nop, _ => False
  | .rst, _ => False
  | .rawb _, _ => False
  | .begin, _ => False
  | .updb _, _ => False
  | .final, _ => False
  | .getchk, _ => False
  | .check, _ => False

/-- The same for this hardware. -/
abbrev BadOperand : Instr → State → Prop := BadOperandOn hardware

/-- A definition with another strategy. -/
def withStrategy (d : Definition) (σ : Strategy) : Definition := { d with strat := σ }

/-- The bytes of a text in ASCII. -/
def ascii (text : String) : List Byte := text.toList.map fun ch => BitVec.ofNat 8 ch.toNat

/-- A run of commands, one after the other (R70). -/
def runAll : List Instr → State → Result
  | [], s => .next s
  | i :: rest, s =>
    match exec i s with
    | .next t => runAll rest t
    | .fault f => .fault f
    | .refused r => .refused r

/-- The bytes a command feeds to a running stream: those of its chunk for a UPD inside the buffer, its byte for an UPDB,
none for any other (R172, R173). -/
def fedBy (i : Instr) (s : State) : List Byte :=
  match i with
  | .upd len off => if off + len ≤ 4096 then s.chunk len off else []
  | .updb b => [b]
  | .nop => []
  | .rst => []
  | .wrd _ _ => []
  | .rdr _ => []
  | .cons => []
  | .refl _ _ => []
  | .rawb _ => []
  | .rdlut _ => []
  | .begin => []
  | .final => []
  | .compute _ _ => []
  | .getchk => []
  | .check => []
  | .ldcat _ => []
  | .rdcat _ _ => []
  | .wrb _ _ => []
  | .rdb _ => []

/-- The bytes a run of commands feeds to a running stream, in order, each chunk read when its UPD runs (R254). -/
def fedDuring : List Instr → State → List Byte
  | [], _ => []
  | i :: rest, s =>
    fedBy i s ++ match exec i s with
      | .next t => fedDuring rest t
      | .fault _ => []
      | .refused _ => []

/-- The commands after which a running stream is still the one that was begun: all but BEGIN, FINAL, CONS and RST
(R28). -/
def keepsStream (i : Instr) : Bool := decide (i ≠ .begin ∧ i ≠ .final ∧ i ≠ .cons ∧ i ≠ .rst)

/-- The state BEGIN leaves with the engine `e` (R171). -/
def begun (s : State) (e : Engine) : State := answered { s with reg := some e.crcInit, ss := .running } 0

/-- The total length of a list of chunks. -/
def totalLength (chunks : List (Nat × Bool)) : Nat := (chunks.map Prod.fst).sum

/-- The commands that feed the bytes of `s.buf` from `off` on, cut into contiguous chunks of the given lengths: a chunk
marked `true` is one UPD, one marked `false` a run of UPDBs with the same bytes (R181). -/
def feedCommands (s : State) : Nat → List (Nat × Bool) → List Instr
  | _, [] => []
  | off, (n, asUpd) :: rest =>
    (if asUpd then [.upd n off] else (s.chunk n off).map .updb) ++ feedCommands s (off + n) rest

end Sys2Proof.Machine
end

