-- ==== Sys2Proof/Certificates/Slice0/Obligations.lean ====
section
/-! DEFINITION. The statements about the block, for the provers. Each docstring names the rule of spec/ it formalises. -/

open Sys2Proof Sys2Proof.Machine

/-! ### Encoding, decoding and the port -/

/-- R80, R82, R83, R84: decoding the word of any well-formed command gives the command back. -/
def Obligations.DecodeInvertsEncode : Prop :=
  ∀ i : Instr, i.wellFormed = true → decode (encode i) = .ok i

/-- R80, R83, R84: a word that decodes has `rsv = 0` and the command's opcode; the command is well formed, its own word
agrees with the given one on every bit the command uses, and is zero in every bit the command ignores. -/
def Obligations.DecodedCommandFitsItsWord : Prop :=
  ∀ (w : CommandWord) (i : Instr), decode w = .ok i →
    i.wellFormed = true ∧ rsvField w = 0 ∧ opField w = i.opcode ∧
    encode i &&& usedBits i = w &&& usedBits i ∧ encode i &&& ~~~(usedBits i) = 0

/-- R83, U8: the bits a command does not use do not matter: a word that agrees on the used bits is the same command. -/
def Obligations.IgnoredBitsDoNotMatter : Prop :=
  ∀ (w w' : CommandWord) (i : Instr), decode w = .ok i → w' &&& usedBits i = w &&& usedBits i → decode w' = .ok i

/-- R212, R85: a word with `rsv ≠ 0` or an opcode outside R84 answers `E_ILLEGAL` and sets `ERR[1]`, nothing else; and
no other word answers `E_ILLEGAL`. -/
def Obligations.IllegalWordsAreRefusedExactly : Prop :=
  ∀ (s : State) (w : CommandWord) (rest : List PortInput), s.port = .command w :: rest →
    (rsvField w ≠ 0 ∨ opField w ∉ definedOpcodes →
      step s = .next { s with port := rest, err := s.err ||| 2, responses := ⟨.eIllegal, 0⟩ :: s.responses }) ∧
    (rsvField w = 0 → opField w ∈ definedOpcodes →
      ∃ t q, step s = .next t ∧ t.responses = q :: s.responses ∧ q.st ≠ .eIllegal)

/-- Words written out from R80 and R84 (95_test_vectors.md and 96_test_vectors_more.md give the same words). -/
def Obligations.WordsDecodeAsTheTableSays : Prop :=
  decode 0x000000000000000000000000 = .ok .nop ∧
  decode 0x020000010000000004C11DB7 = .ok (.wrd 1 0x04C11DB7) ∧
  decode 0x08000040123456789ABCDEF0 = .ok (.refl 64 0x123456789ABCDEF0) ∧
  decode 0x0A0000FF0000000000000000 = .ok (.rdlut 255) ∧
  decode 0x110000050000000000000004 = .ok (.upd 5 4) ∧
  decode 0x1400000000000000FFFF0000 = .ok (.compute 0 0) ∧
  decode 0x190003060000000000000000 = .ok (.rdcat 3 6) ∧
  decode 0x1C00000500000000000001FF = .ok (.wrb 5 0xFF) ∧
  decode 0x118013880000000000000000 = .error (.reservedNotZero 0x80) ∧
  decode 0x070000000000000000001234 = .error (.undefinedOpcode 0x07)

/-- R9, R82: when the word presented decodes to a command, the step takes it from the port and is that command; so is
the step from a state in which a table word of 96 bits has been presented. With nothing presented the block does nothing,
by the model's choice of log 1. R4, R42: this hardware is the block `execOn`, `stepOn` with the parameters `hardware`; a step
of a block with any parameters runs the decoded command in the same way, and only RDR of `CATLEN` or `BUFSZ`, UPD, COMPUTE,
LDCAT, RDCAT, WRB and RDB depend on the parameters. -/
def Obligations.StepRunsTheDecodedCommand : Prop :=
  (∀ (s : State) (w : CommandWord) (rest : List PortInput) (i : Instr),
    s.port = .command w :: rest → decode w = .ok i → step s = exec i { s with port := rest }) ∧
  (∀ (s : State) (n : Nat) (i : Instr), decodeTableWord 96 n = some i → step (s.withFetchWord 96 n) = exec i s) ∧
  (∀ s : State, s.port = [] → step s = .next s) ∧
  (∀ (i : Instr) (s : State), exec i s = execOn hardware i s) ∧ (∀ s : State, step s = stepOn hardware s) ∧
  (∀ (p : Params) (s : State) (w : CommandWord) (rest : List PortInput) (i : Instr),
    s.port = .command w :: rest → decode w = .ok i → stepOn p s = execOn p i { s with port := rest }) ∧
  (∀ (p : Params) (i : Instr) (s : State), i ≠ .rdr 0x22 → i ≠ .rdr 0x23 → (∀ len off, i ≠ .upd len off) →
    (∀ len off, i ≠ .compute len off) → (∀ k, i ≠ .ldcat k) → (∀ entry sel, i ≠ .rdcat entry sel) →
    (∀ idx b, i ≠ .wrb idx b) → (∀ idx, i ≠ .rdb idx) → execOn p i s = exec i s)

/-- R240, R241, R41: hardware reset leaves every register as the table of R41 says, without engine, table and running
value; that it is taken from the port and that the buffer then reads as a new set of free bytes is the model's choice
(log 4). -/
def Obligations.HardwareResetLeavesTheResetState : Prop :=
  ∀ (s : State) (rest : List PortInput), s.port = .hardReset :: rest →
    ∃ t, step s = .next t ∧
      t.staging.bits = 0 ∧ t.staging.poly = 0 ∧ t.staging.init = 0 ∧ t.staging.refIn = false ∧
      t.staging.refOut = false ∧ t.staging.xorOut = 0 ∧ t.staging.check = 0 ∧ t.staging.strat = .bits ∧
      t.engine = none ∧ t.lutLen = 0 ∧ t.ss = .idle ∧ t.reg = none ∧ t.err = 0 ∧
      t.port = rest ∧ t.responses = s.responses ∧ ∀ a, t.memRead a = Config.launchByte (s.launch + 1) a

/-- R41: the state the machine starts in. -/
def Obligations.ResetStateIsTheTableOfReset : Prop :=
  (∀ f : Field, readField State.reset.staging f = 0) ∧ State.reset.engine = none ∧ State.reset.lutLen = 0 ∧
  State.reset.ss = .idle ∧ State.reset.reg = none ∧ State.reset.err = 0

/-- R81: every command, illegal ones too, is answered by exactly one response, its word has the layout of the table,
and its value is 0 whenever its status is not `OK`. -/
def Obligations.EveryCommandAnswersOnce : Prop :=
  (∀ (s : State) (w : CommandWord) (rest : List PortInput), s.port = .command w :: rest →
    ∃ t q, step s = .next t ∧ t.responses = q :: s.responses ∧ t.port = rest ∧ (q.st ≠ .ok → q.r = 0)) ∧
  (∀ (i : Instr) (s : State), ∃ t q, exec i s = .next t ∧ t.responses = q :: s.responses ∧ t.port = s.port ∧
    t.launch = s.launch ∧ (q.st ≠ .ok → q.r = 0)) ∧
  (∀ q : Response, q.encode.extractLsb' 68 4 = 0 ∧ (q.encode.extractLsb' 64 4).toNat = q.st.code ∧
    q.encode.extractLsb' 0 64 = q.r)

/-- R217, R210: whatever a failed command is, the only changes are its `ERR` bit and its response. -/
def Obligations.FailedCommandChangesNothingElse : Prop :=
  ∀ (s t : State) (w : CommandWord) (rest : List PortInput) (q : Response),
    s.port = .command w :: rest → step s = .next t → t.responses = q :: s.responses → q.st ≠ .ok →
    q.r = 0 ∧ t = failed { s with port := rest } q.st

/-- R29: a response with status `k` sets bit `k` of `ERR` and clears none; RST and hardware reset clear it, and nothing
else does; the reserved bits, and bit 5, stay zero. -/
def Obligations.ErrorFlagsAreSticky : Prop :=
  (∀ (s : State) (rest : List PortInput), s.port = .hardReset :: rest → ∃ t, step s = .next t ∧ t.err = 0) ∧
  ∀ (s t : State) (w : CommandWord) (rest : List PortInput) (q : Response),
    s.port = .command w :: rest → step s = .next t → t.responses = q :: s.responses →
    (decode w = .ok .rst → t.err = 0) ∧
    (decode w ≠ .ok .rst →
      ∀ k, t.err.getLsbD k = (s.err.getLsbD k || (decide (q.st ≠ .ok) && decide (k = q.st.code)))) ∧
    ((∀ k, k = 0 ∨ 5 ≤ k → s.err.getLsbD k = false) → ∀ k, k = 0 ∨ 5 ≤ k → t.err.getLsbD k = false)

/-- R213, R214, R216, R218: for a decoded command the statuses `E_STATE`, `E_ARG`, `E_SELFTEST` are raised exactly
under the listed conditions, state before operand before self-test, and no other failure occurs; the same with other
parameters (R4). -/
def Obligations.StatusesAreRaisedExactlyWhenListed : Prop :=
  (∀ (i : Instr) (s : State), s.Inv → ∃ t q, exec i s = .next t ∧ t.responses = q :: s.responses ∧
    (q.st = .eState ↔ NeedsOtherState i s) ∧
    (q.st = .eArg ↔ ¬ NeedsOtherState i s ∧ BadOperand i s) ∧
    (q.st = .eSelftest ↔ i = .check ∧ ∃ e, s.engine = some e ∧ checksum e checkMessage ≠ e.check) ∧
    q.st ≠ .eIllegal ∧ q.st ≠ .eIo) ∧
  (∀ (p : Params) (i : Instr) (s : State), s.InvOn p → ∃ t q, execOn p i s = .next t ∧ t.responses = q :: s.responses ∧
    (q.st = .eState ↔ NeedsOtherState i s) ∧ (q.st = .eArg ↔ ¬ NeedsOtherState i s ∧ BadOperandOn p i s) ∧
    (q.st = .eSelftest ↔ i = .check ∧ ∃ e, s.engine = some e ∧ checksum e checkMessage ≠ e.check) ∧
    q.st ≠ .eIllegal ∧ q.st ≠ .eIo)

/-! ### System and registers -/

/-- R200: NOP answers 0 and changes nothing. -/
def Obligations.NopAnswersZero : Prop :=
  ∀ s : State, exec .nop s = .next (answered s 0)

/-- R201, R41: RST puts everything but `BUF` at its reset value and answers 0. -/
def Obligations.RstResetsAllButTheBuffer : Prop :=
  ∀ s : State, ∃ t, exec .rst s = .next t ∧ (∀ f : Field, readField t.staging f = 0) ∧ t.engine = none ∧
    t.lutLen = 0 ∧ t.ss = .idle ∧ t.reg = none ∧ t.err = 0 ∧ (∀ a, t.memRead a = s.memRead a) ∧
    t.launch = s.launch ∧ t.port = s.port ∧ t.responses = ⟨.ok, 0⟩ :: s.responses

/-- R153, R22: WRD of a staging register with a value it can hold writes that register, whole, and no other; any other
WRD is `E_ARG`. -/
def Obligations.WrdWritesOneStagingRegister : Prop :=
  (∀ (f : Field) (v : Word) (s : State), ¬ BadOperand (.wrd f.index v) s →
    ∃ t, exec (.wrd f.index v) s = .next t ∧ readField t.staging f = v ∧
      (∀ g : Field, g ≠ f → readField t.staging g = readField s.staging g) ∧
      t = answered { s with staging := t.staging } 0) ∧
  (∀ (reg : Nat) (v : Word) (s : State), BadOperand (.wrd reg v) s → exec (.wrd reg v) s = .next (failed s .eArg))

/-- R154, R35, R30, R31: RDR of every assigned index answers the register's value and changes nothing; an active or
derived register without an engine is `E_STATE`, an unassigned index `E_ARG`. R4, R31: with other parameters `CATLEN` and
`BUFSZ` answer those. -/
def Obligations.RdrReadsEveryRegister : Prop :=
  ∀ s : State,
    (∀ p ∈ [(0x00, s.staging.bits.setWidth 64), (0x01, s.staging.poly), (0x02, s.staging.init),
        (0x03, if s.staging.refIn then 1 else 0), (0x04, if s.staging.refOut then 1 else 0),
        (0x05, s.staging.xorOut), (0x06, s.staging.check),
        (0x07, match s.staging.strat with | .bits => 0 | .table4 => 1 | .table8 => 2),
        (0x20, (if s.engine.isSome then 1 else 0) + (match s.ss with | .idle => 0 | .running => 2 | .spent => 4)),
        (0x21, s.err), (0x22, 9), (0x23, 4096)],
      exec (.rdr p.1) s = .next (answered s p.2)) ∧
    (∀ e, s.engine = some e →
      ∀ p ∈ [(0x10, e.bits.setWidth 64), (0x11, e.poly), (0x12, e.init),
        (0x13, if e.refIn then 1 else 0), (0x14, if e.refOut then 1 else 0), (0x15, e.xorOut), (0x16, e.check),
        (0x17, match e.strat with | .bits => 0 | .table4 => 1 | .table8 => 2),
        (0x18, e.topBit), (0x19, e.mask), (0x1A, e.crcInit), (0x1B, e.rPoly)],
      exec (.rdr p.1) s = .next (answered s p.2)) ∧
    (s.engine = none → ∀ a, 0x10 ≤ a → a ≤ 0x1B → exec (.rdr a) s = .next (failed s .eState)) ∧
    (∀ a, BadOperand (.rdr a) s → exec (.rdr a) s = .next (failed s .eArg)) ∧
    (∀ p : Params, execOn p (.rdr 0x22) s = .next (answered s (BitVec.ofNat 64 p.catLen)) ∧
      ∃ n : Word, execOn p (.rdr 0x23) s = .next (answered s n) ∧ n.toNat = p.bufBytes)

/-- R158, R24, R25, R130, R132, R133: CONS with a legal `D_BITS` builds the engine: the definition masked to `E_BITS`
bits (`E_CHECK` as it is), the derived registers, the whole table of the strategy; `SS` is IDLE, and nothing else
changes; with an illegal `D_BITS` it is `E_ARG`. -/
def Obligations.ConsBuildsTheEngine : Prop :=
  ∀ s : State,
    (1 ≤ s.staging.bits.toNat → s.staging.bits.toNat ≤ 64 →
      ∃ e, exec .cons s = .next (answered { s with engine := some e, ss := .idle } 0) ∧
        e.bits = s.staging.bits ∧ e.topBit.toNat = 2 ^ (e.width - 1) ∧ e.mask.toNat = 2 ^ e.width - 1 ∧
        e.poly = s.staging.poly &&& e.mask ∧ e.init = s.staging.init &&& e.mask ∧
        e.xorOut = s.staging.xorOut &&& e.mask ∧ e.refIn = s.staging.refIn ∧ e.refOut = s.staging.refOut ∧
        e.check = s.staging.check ∧ e.strat = s.staging.strat ∧ e.rPoly = reflect e.poly e.width ∧
        e.crcInit = (if e.refIn then reflect e.init e.width else e.init) ∧
        (e.strat = .bits → e.lut = []) ∧
        (e.strat = .table4 → e.lut.length = 16 ∧ ∀ k, k < 16 → e.lut[k]? = some (nib e (BitVec.ofNat 4 k))) ∧
        (e.strat = .table8 → e.lut.length = 256 ∧ ∀ k, k < 256 → e.lut[k]? = some (raw e (BitVec.ofNat 8 k)))) ∧
    (s.staging.bits.toNat < 1 ∨ 64 < s.staging.bits.toNat → exec .cons s = .next (failed s .eArg))

/-- R159, R138, R25: no command but a successful CONS and RST changes the active engine, its derived registers or its
table. -/
def Obligations.EngineChangesOnlyByConsOrRst : Prop :=
  ∀ (i : Instr) (s t : State) (q : Response), exec i s = .next t → t.responses = q :: s.responses →
    ¬ (i = .cons ∧ q.st = .ok) → i ≠ .rst → t.engine = s.engine ∧ t.lutLen = s.lutLen

/-- R255, R21: the staging registers change only by WRD, LDCAT and RST. -/
def Obligations.StagingChangesOnlyByWrdLdcatRst : Prop :=
  ∀ (i : Instr) (s t : State), exec i s = .next t → (∀ reg v, i ≠ .wrd reg v) → (∀ k, i ≠ .ldcat k) → i ≠ .rst →
    t.staging = s.staging

/-- R28: the transitions of `SS`, exactly, and what they write to `REG`; UPD, UPDB and FINAL outside RUNNING fail with
`E_STATE` and change nothing else. -/
def Obligations.StreamStateMovesAsListed : Prop :=
  (∀ (i : Instr) (s t : State) (q : Response), exec i s = .next t → t.responses = q :: s.responses →
    (q.st ≠ .ok → t.ss = s.ss) ∧
    (q.st = .ok →
      (i = .begin → t.ss = .running ∧ ∃ e, s.engine = some e ∧ t.reg = some e.crcInit) ∧
      (i = .final → s.ss = .running ∧ t.ss = .spent) ∧
      (i = .cons ∨ i = .rst → t.ss = .idle) ∧
      (i ≠ .begin → i ≠ .final → i ≠ .cons → i ≠ .rst → t.ss = s.ss))) ∧
  (∀ (i : Instr) (s : State), (∃ len off, i = .upd len off) ∨ (∃ b, i = .updb b) ∨ i = .final → s.ss ≠ .running →
    exec i s = .next (failed s .eState)) ∧
  (∀ (s : State) (rest : List PortInput), s.port = .hardReset :: rest → ∃ t, step s = .next t ∧ t.ss = .idle)

/-- R27, R158, R174: `REG` changes only by BEGIN, UPD, UPDB and RST. -/
def Obligations.RegisterChangesOnlyByStreamCommands : Prop :=
  ∀ (i : Instr) (s t : State), exec i s = .next t → i ≠ .begin → (∀ len off, i ≠ .upd len off) →
    (∀ b, i ≠ .updb b) → i ≠ .rst → t.reg = s.reg

/-- R32, R202: no command changes a byte of the buffer but WRB, and WRB only the byte at its index. -/
def Obligations.BufferChangesOnlyByWrb : Prop :=
  ∀ (i : Instr) (s t : State), exec i s = .next t →
    ∀ a, (∀ idx b, i = .wrb idx b → a ≠ idx) → t.memRead a = s.memRead a

/-! ### The units -/

/-- R100: `reflect(v, n)` has bit `n-1-i` of its result equal to bit `i` of `v`, and zeros from bit `n` up. -/
def Obligations.ReflectMovesBitsAsTheContractSays : Prop :=
  ∀ (v : Word) (n : Nat), n ≤ 64 →
    (∀ i, i < n → (reflect v n).getLsbD (n - 1 - i) = v.getLsbD i) ∧ ∀ j, n ≤ j → (reflect v n).getLsbD j = false

/-- R101: the laws (a) to (f) of `reflect`. -/
def Obligations.ReflectLaws : Prop :=
  ∀ (v x y : Word) (n : Nat), n ≤ 64 →
    (reflect v n).toNat < 2 ^ n ∧
    reflect (reflect v n) n = v &&& BitVec.ofNat 64 (2 ^ n - 1) ∧
    reflect v n = reflect (v &&& BitVec.ofNat 64 (2 ^ n - 1)) n ∧
    reflect (x ^^^ y) n = reflect x n ^^^ reflect y n ∧
    reflect v 1 = v &&& 1 ∧
    (1 ≤ n → (reflect v n).getLsbD (n - 1) = v.getLsbD 0 ∧ (reflect v n).getLsbD 0 = v.getLsbD (n - 1))

/-- R102, R100: REFL answers the reflection, bit for bit, in every state, and changes nothing; more than 64 bits is
`E_ARG`. -/
def Obligations.ReflAnswersTheReflection : Prop :=
  ∀ (n : Nat) (v : Word) (s : State),
    (n ≤ 64 → ∃ r : Word, exec (.refl n v) s = .next (answered s r) ∧
      ∀ j, r.getLsbD j = (decide (j < n) && v.getLsbD (n - 1 - j))) ∧
    (64 < n → exec (.refl n v) s = .next (failed s .eArg))

/-- R111: the reflected step is the mirror image of the normal step. -/
def Obligations.ReflectedStepMirrorsNormalStep : Prop :=
  ∀ (e : Engine) (c : Word) (d : Bool), e.Wf → c ≤ e.mask →
    stepR e (reflect c e.width) d = reflect (stepN e c d) e.width

/-- R112: masking once after the eight steps, with stray bits let pile up, gives what masking at every step gives. -/
def Obligations.MaskingOnceAtTheEndIsTheSame : Prop :=
  ∀ (e : Engine) (b : Byte), e.Wf →
    rawN e b = ([7, 6, 5, 4, 3, 2, 1, 0].foldl
      (fun (c : Word) i => if (c.getLsbD (e.width - 1)) ^^ (b.getLsbD i) then (c <<< 1) ^^^ e.poly else c <<< 1) 0)
      &&& e.mask

/-- R114: the form with the byte preloaded gives the reflected raw byte; two values of it. -/
def Obligations.PreloadedFormIsTheReflectedProcessor : Prop :=
  ∀ (e : Engine) (b : Byte), e.Wf →
    rawR e b = (fun c : Word => if c.getLsbD 0 then (c >>> 1) ^^^ e.rPoly else c >>> 1)^[8] (b.setWidth 64) ∧
    rawR e 0 = 0 ∧ rawR e 0x80 = e.rPoly

/-- R117: the update by one byte is eight divider steps on the whole register, most significant bit first in normal
mode, least significant bit first in reflected mode. -/
def Obligations.ByteUpdateIsEightDividerSteps : Prop :=
  ∀ (e : Engine) (c : Word) (b : Byte), e.Wf → c ≤ e.mask →
    updBits e c b =
      if e.refIn then [0, 1, 2, 3, 4, 5, 6, 7].foldl (fun c i => stepR e c (b.getLsbD i)) c
      else [7, 6, 5, 4, 3, 2, 1, 0].foldl (fun c i => stepN e c (b.getLsbD i)) c

/-- R118: over GF(2), with `P = x^bits + poly(x)`, the step, the raw byte and the byte update are remainders modulo
`P`; in reflected mode so are the reflected values. -/
def Obligations.DividerIsPolynomialRemainder : Prop :=
  ∀ (e : Engine) (c : Word) (d : Bool) (b : Byte), e.Wf → c ≤ e.mask →
    let p : Word → Polynomial (ZMod 2) :=
      fun w => ∑ i ∈ Finset.range 64, if w.getLsbD i then (Polynomial.X : Polynomial (ZMod 2)) ^ i else 0
    let x : Polynomial (ZMod 2) := Polynomial.X
    let P := x ^ e.width + p e.poly
    p (stepN e c d) = Polynomial.modByMonic (p c * x + (if d then x ^ e.width else 0)) P ∧
    p (rawN e b) = Polynomial.modByMonic (p (b.setWidth 64) * x ^ e.width) P ∧
    (e.refIn = false →
      p (updBits e c b) = Polynomial.modByMonic (p c * x ^ 8 + p (b.setWidth 64) * x ^ e.width) P) ∧
    (e.refIn = true →
      p (reflect (updBits e c b) e.width) =
        Polynomial.modByMonic (p (reflect c e.width) * x ^ 8 + p (reflect (b.setWidth 64) 8) * x ^ e.width) P)

/-- R119: the reflected raw byte is the reflection of the normal raw byte of the reversed byte. -/
def Obligations.ReflectedModeIsNormalModeOnReversedBytes : Prop :=
  ∀ (e : Engine) (b : Byte), e.Wf →
    rawR e b = reflect (rawN e ((reflect (b.setWidth 64) 8).setWidth 8)) e.width

/-- R121: the raw byte processor and the byte update are linear over exclusive or. -/
def Obligations.DividerIsLinear : Prop :=
  ∀ e : Engine, e.Wf →
    (∀ x y : Byte, raw e (x ^^^ y) = raw e x ^^^ raw e y) ∧ raw e 0 = 0 ∧
    (∀ c₁ c₂ b₁ b₂, c₁ ≤ e.mask → c₂ ≤ e.mask →
      updBits e (c₁ ^^^ c₂) (b₁ ^^^ b₂) = updBits e c₁ b₁ ^^^ updBits e c₂ b₂) ∧
    (∀ h l : Nibble, raw e (h ++ l) = raw e (h ++ (0 : Nibble)) ^^^ raw e ((0 : Nibble) ++ l))

/-- R120, R113, R114: RAWB answers the eight divider steps on the byte from a zero register, whatever the strategy, and
changes nothing; without an engine it is `E_STATE`. -/
def Obligations.RawbAnswersTheRawByte : Prop :=
  ∀ (b : Byte) (s : State),
    (∀ e, s.engine = some e →
      exec (.rawb b) s = .next (answered s
        (if e.refIn then [0, 1, 2, 3, 4, 5, 6, 7].foldl (fun c i => stepR e c (b.getLsbD i)) 0
         else [7, 6, 5, 4, 3, 2, 1, 0].foldl (fun c i => stepN e c (b.getLsbD i)) 0))) ∧
    (s.engine = none → exec (.rawb b) s = .next (failed s .eState))

/-- R137, R132, R133, R131: with an engine CONS built, RDLUT below `LUT_LEN` answers the table entry (the raw byte for
Table8, the raw nibble for Table4) and changes nothing; at or above it `E_ARG`; without an engine `E_STATE`. -/
def Obligations.RdlutAnswersTheTableEntry : Prop :=
  ∀ (k : Nat) (s : State),
    (∀ e, s.engine = some e → e.Wf →
      (e.strat = .table8 → k < 256 → exec (.rdlut k) s = .next (answered s (raw e (BitVec.ofNat 8 k)))) ∧
      (e.strat = .table4 → k < 16 → exec (.rdlut k) s = .next (answered s (nib e (BitVec.ofNat 4 k)))) ∧
      ((match e.strat with | .bits => 0 | .table4 => 16 | .table8 => 256) ≤ k →
        exec (.rdlut k) s = .next (failed s .eArg))) ∧
    (s.engine = none → exec (.rdlut k) s = .next (failed s .eState))

/-- R136, (a) to (e): the table updates equal the bit-serial update, a nibble update is four divider steps, and how the
entries of the two tables are related. -/
def Obligations.TableUpdatesEqualTheDivider : Prop :=
  ∀ e : Engine, e.Wf →
    (∀ (c : Word) (b : Byte), c ≤ e.mask → e.strat = .table8 → updT8 e c b = updBits e c b) ∧
    (∀ (c : Word) (b : Byte), c ≤ e.mask → e.strat = .table4 → updT4 e c b = updBits e c b) ∧
    (∀ (c : Word) (n : Nibble), c ≤ e.mask → e.strat = .table4 →
      n4 e c n = if e.refIn then [0, 1, 2, 3].foldl (fun c i => stepR e c (n.getLsbD i)) c
        else [3, 2, 1, 0].foldl (fun c i => stepN e c (n.getLsbD i)) c) ∧
    (∀ k : Nibble, nibN e k = rawN e ((0 : Nibble) ++ k) ∧ nibR e k = rawR e (k ++ (0 : Nibble))) ∧
    (∀ (h l : Nibble) (e4 e8 : Engine), e4 = construct (withStrategy e.toDefinition .table4) →
      e8 = construct (withStrategy e.toDefinition .table8) →
      raw e (h ++ l) = raw e (h ++ (0 : Nibble)) ^^^ raw e ((0 : Nibble) ++ l) ∧
      lutEntry e8 (16 * h.toNat + l.toNat) =
        if e.refIn then lutEntry e4 h.toNat ^^^ rawR e ((0 : Nibble) ++ l)
        else rawN e (h ++ (0 : Nibble)) ^^^ lutEntry e4 l.toNat)

/-! ### The engine -/

/-- R171: with an engine, BEGIN sets `REG` to `E_CRCINIT` and `SS` to RUNNING, in every stream state; without one it is
`E_STATE`. -/
def Obligations.BeginStartsAStream : Prop :=
  ∀ s : State,
    (∀ e, s.engine = some e →
      exec .begin s = .next (answered { s with reg := some e.crcInit, ss := .running } 0)) ∧
    (s.engine = none → exec .begin s = .next (failed s .eState))

/-- R172, R170, R65: while a stream runs, UPD of a chunk inside the buffer updates `REG` with its bytes in ascending
order, and nothing else; a chunk that leaves the buffer is `E_ARG`; outside RUNNING it is `E_STATE`. R4: the same in a
block with another buffer size. -/
def Obligations.UpdFeedsTheChunkInOrder : Prop :=
  ∀ (len off : Nat) (s : State),
    (∀ e c, s.ss = .running → s.engine = some e → s.reg = some c →
      (off + len ≤ 4096 → exec (.upd len off) s = .next (answered
        { s with reg := some ((List.range len).foldl (fun c i => upd e c (s.memRead (off + i))) c) } 0)) ∧
      (4096 < off + len → exec (.upd len off) s = .next (failed s .eArg))) ∧
    (s.ss ≠ .running → exec (.upd len off) s = .next (failed s .eState)) ∧
    (∀ p : Params,
      (∀ e c, s.ss = .running → s.engine = some e → s.reg = some c →
        (off + len ≤ p.bufBytes → execOn p (.upd len off) s = .next (answered
          { s with reg := some ((List.range len).foldl (fun c i => upd e c (s.memRead (off + i))) c) } 0)) ∧
        (p.bufBytes < off + len → execOn p (.upd len off) s = .next (failed s .eArg))) ∧
      (s.ss ≠ .running → execOn p (.upd len off) s = .next (failed s .eState)))

/-- R173: UPDB updates `REG` with its byte and nothing else; it has the effect of WRB and a one-byte UPD, except on the
buffer; outside RUNNING it is `E_STATE`. -/
def Obligations.UpdbFeedsOneByte : Prop :=
  ∀ (b : Byte) (s : State),
    (∀ e c, s.ss = .running → s.engine = some e → s.reg = some c →
      exec (.updb b) s = .next (answered { s with reg := some (upd e c b) } 0) ∧
      ∀ idx, idx < 4096 → ∃ t, runAll [.wrb idx b, .upd 1 idx] s = .next t ∧
        t = { s with reg := some (upd e c b), buf := t.buf, responses := ⟨.ok, 0⟩ :: ⟨.ok, 0⟩ :: s.responses }) ∧
    (s.ss ≠ .running → exec (.updb b) s = .next (failed s .eState))

/-- R174, R175: FINAL answers the finalised register (reflected when `E_REFOUT ≠ E_REFIN`, xored with `E_XOROUT`, masked)
and leaves the stream SPENT with `REG` as it was; then a second FINAL is `E_STATE`, as outside RUNNING. -/
def Obligations.FinalAnswersOnceAndSpendsTheStream : Prop :=
  ∀ s : State,
    (∀ e c, s.ss = .running → s.engine = some e → s.reg = some c →
      let t := answered { s with ss := .spent }
        (((if e.refOut = e.refIn then c else reflect c e.width) ^^^ e.xorOut) &&& e.mask)
      exec .final s = .next t ∧ exec .final t = .next (failed t .eState)) ∧
    (s.ss ≠ .running → exec .final s = .next (failed s .eState))

/-- R176: COMPUTE answers the finalised update of `E_CRCINIT` with the bytes of the chunk, changing nothing: the value
`BEGIN ; UPD len, off ; FINAL` answers; a chunk that leaves the buffer is `E_ARG`, no engine `E_STATE`.
R4: the same in a block with another buffer size. -/
def Obligations.ComputeAnswersTheChecksumOfTheChunk : Prop :=
  ∀ (len off : Nat) (s : State),
    (∀ e, s.engine = some e →
      (off + len ≤ 4096 →
        let r := fin e ((List.range len).foldl (fun c i => upd e c (s.memRead (off + i))) e.crcInit)
        exec (.compute len off) s = .next (answered s r) ∧
        ∃ t, runAll (pseudoStream len off) s = .next t ∧ t.responses.head? = some ⟨.ok, r⟩) ∧
      (4096 < off + len → exec (.compute len off) s = .next (failed s .eArg))) ∧
    (s.engine = none → exec (.compute len off) s = .next (failed s .eState)) ∧
    (∀ p : Params,
      (∀ e, s.engine = some e →
        (off + len ≤ p.bufBytes → execOn p (.compute len off) s = .next (answered s
          (fin e ((List.range len).foldl (fun c i => upd e c (s.memRead (off + i))) e.crcInit)))) ∧
        (p.bufBytes < off + len → execOn p (.compute len off) s = .next (failed s .eArg))) ∧
      (s.engine = none → execOn p (.compute len off) s = .next (failed s .eState)))

/-- R177, R34: GETCHK answers the checksum of "123456789" and changes nothing; without an engine it is `E_STATE`. -/
def Obligations.GetchkAnswersTheCheckMessageChecksum : Prop :=
  ∀ s : State,
    (∀ e, s.engine = some e →
      exec .getchk s = .next (answered s (fin e ((ascii "123456789").foldl (upd e) e.crcInit)))) ∧
    (s.engine = none → exec .getchk s = .next (failed s .eState))

/-- R178: CHECK answers what GETCHK answers, the checksum of "123456789", when it equals `E_CHECK`, and otherwise fails with `E_SELFTEST`, the engine
staying valid; an `E_CHECK` with bits above the width never matches; without an engine it is `E_STATE`. -/
def Obligations.CheckComparesAllBits : Prop :=
  ∀ s : State,
    (∀ e, s.engine = some e →
      let r := fin e ((ascii "123456789").foldl (upd e) e.crcInit)
      exec .getchk s = .next (answered s r) ∧
      (r = e.check → exec .check s = .next (answered s r)) ∧
      (r ≠ e.check → exec .check s = .next (failed s .eSelftest)) ∧
      (e.mask < e.check → exec .check s = .next (failed s .eSelftest))) ∧
    (s.engine = none → exec .check s = .next (failed s .eState))

/-- R179: the checksum of the empty message, by COMPUTE and by BEGIN and FINAL, written out from `E_INIT` and
`E_XOROUT`. -/
def Obligations.EmptyMessageChecksum : Prop :=
  ∀ (s : State) (e : Engine) (off : Nat), s.engine = some e → e.Wf → off ≤ 4096 →
    let r := if e.refOut then (reflect e.init e.width ^^^ e.xorOut) &&& e.mask else (e.init ^^^ e.xorOut) &&& e.mask
    exec (.compute 0 off) s = .next (answered s r) ∧ fin e e.crcInit = r ∧
    ∃ t, runAll [.begin, .final] s = .next t ∧ t.responses.head? = some ⟨.ok, r⟩

/-- R180: for one definition the three strategies give the same update, and UPD, UPDB, FINAL, COMPUTE, GETCHK and CHECK
end alike under the engines of any two of them: the same `REG`, the same response, the same everything but the engine. -/
def Obligations.StrategiesAgree : Prop :=
  ∀ (d : Definition) (σ τ : Strategy), 1 ≤ d.bits.toNat → d.bits.toNat ≤ 64 →
    let e := construct (withStrategy d σ)
    let f := construct (withStrategy d τ)
    (∀ (c : Word) (b : Byte), c ≤ e.mask → upd e c b = upd f c b) ∧
    (∀ (i : Instr) (s t : State), (∃ len off, i = .upd len off ∨ i = .compute len off) ∨ (∃ b, i = .updb b) ∨
        i = .final ∨ i = .getchk ∨ i = .check →
      (∀ c, s.reg = some c → c ≤ e.mask) → exec i { s with engine := some e } = .next t →
      exec i { s with engine := some f } = .next { t with engine := some f })

/-- R181: however a message in the buffer is cut into contiguous chunks, empty ones included, each fed by one UPD or by
UPDBs, BEGIN, the chunks and FINAL answer what COMPUTE answers on the whole message. The same wherever in the buffer the
chunks stand when they are fed and whatever else runs in between, as long as the stream stays the one begun: FINAL answers
the checksum of the bytes fed since BEGIN, of any number, and that is what COMPUTE answers where those bytes stand in one
chunk. -/
def Obligations.ChunkBoundariesDoNotMatter : Prop :=
  (∀ (s : State) (e : Engine) (off : Nat) (chunks : List (Nat × Bool)), s.engine = some e →
    off + totalLength chunks ≤ 4096 →
    ∃ r t, exec (.compute (totalLength chunks) off) s = .next (answered s r) ∧
      runAll (.begin :: feedCommands s off chunks ++ [.final]) s = .next t ∧ t.responses.head? = some ⟨.ok, r⟩) ∧
  (∀ (s : State) (e : Engine) (cmds : List Instr), s.engine = some e → (∀ i ∈ cmds, keepsStream i = true) →
    let m := fedDuring cmds (begun s e)
    ∃ t, runAll (.begin :: cmds ++ [.final]) s = .next t ∧
      t.responses.head? = some ⟨.ok, fin e (m.foldl (upd e) e.crcInit)⟩ ∧
      ∀ (u : State) (off : Nat), u.engine = some e → off + m.length ≤ 4096 → u.chunk m.length off = m →
        exec (.compute m.length off) u = .next (answered u (fin e (m.foldl (upd e) e.crcInit))))

/-- R183, R191: for every definition whose `check` is right for one strategy, GETCHK answers it with every strategy; and
the checks of the three catalogued definitions are right. -/
def Obligations.KnownAnswersForEveryStrategy : Prop :=
  (∀ (d : Definition) (s : State) (τ σ : Strategy), 1 ≤ d.bits.toNat → d.bits.toNat ≤ 64 →
    checksum (construct (withStrategy d τ)) checkMessage = d.check →
    s.engine = some (construct (withStrategy d σ)) → exec .getchk s = .next (answered s d.check)) ∧
  (∀ d ∈ [crc32IsoHdlc .bits, crc64Xz .bits, crc32Bzip2 .bits], checksum (construct d) checkMessage = d.check)

/-- R194: the conformance test passes for every catalogue entry from every state: LDCAT, CONS, CHECK all answer `OK`,
and `ERR` stays as it was. -/
def Obligations.CatalogueSelfTestPasses : Prop :=
  ∀ (s : State) (i : Nat), i < 9 →
    ∃ t r, runAll [.ldcat i, .cons, .check] s = .next t ∧
      t.responses = ⟨.ok, r⟩ :: ⟨.ok, 0⟩ :: ⟨.ok, 0⟩ :: s.responses ∧ t.err = s.err ∧
      r = if i / 3 = 0 then 0xCBF43926 else if i / 3 = 1 then 0x995DC9BBDF1939FA else 0xFC891918

/-- R184: the response of COMPUTE is a function of the definition and the bytes of the chunk, the response of FINAL of
the definition and the bytes fed since BEGIN, whatever commands fed them, over whatever buffer contents, and whatever else
ran in between; neither depends on anything else, the strategy included. -/
def Obligations.ChecksumDependsOnDefinitionAndBytesOnly : Prop :=
  ∀ (s s' : State) (e e' : Engine), s.engine = some e → s'.engine = some e' → e.Wf → e'.Wf →
    withStrategy e.toDefinition .bits = withStrategy e'.toDefinition .bits →
    (∀ len off off', off + len ≤ 4096 → off' + len ≤ 4096 →
      (∀ i, i < len → s.memRead (off + i) = s'.memRead (off' + i)) →
      ∃ r, exec (.compute len off) s = .next (answered s r) ∧
        exec (.compute len off') s' = .next (answered s' r)) ∧
    (∀ off off' chunks chunks', off + totalLength chunks ≤ 4096 → off' + totalLength chunks ≤ 4096 →
      totalLength chunks' = totalLength chunks →
      (∀ i, i < totalLength chunks → s.memRead (off + i) = s'.memRead (off' + i)) →
      ∃ r t t', runAll (.begin :: feedCommands s off chunks ++ [.final]) s = .next t ∧
        runAll (.begin :: feedCommands s' off' chunks' ++ [.final]) s' = .next t' ∧
        t.responses.head? = some ⟨.ok, r⟩ ∧ t'.responses.head? = some ⟨.ok, r⟩) ∧
    (∀ cmds cmds', (∀ i ∈ cmds, keepsStream i = true) → (∀ i ∈ cmds', keepsStream i = true) →
      fedDuring cmds (begun s e) = fedDuring cmds' (begun s' e') →
      ∃ r t t', runAll (.begin :: cmds ++ [.final]) s = .next t ∧ runAll (.begin :: cmds' ++ [.final]) s' = .next t' ∧
        t.responses.head? = some ⟨.ok, r⟩ ∧ t'.responses.head? = some ⟨.ok, r⟩)

/-! ### Catalogue and buffer -/

/-- R192, R191: LDCAT copies the eight numeric fields of the entry into staging and changes nothing else; an index of 9
or more is `E_ARG`. R4: the same for any catalogue, with its length in place of 9. -/
def Obligations.LdcatCopiesTheEntry : Prop :=
  ∀ (i : Nat) (s : State),
    (i < 9 → exec (.ldcat i) s = .next (answered { s with staging :=
      { bits := if i / 3 = 1 then 64 else 32
        poly := if i / 3 = 1 then 0x42F0E1EBA9EA3693 else 0x04C11DB7
        init := if i / 3 = 1 then 0xFFFFFFFFFFFFFFFF else 0xFFFFFFFF
        refIn := decide (i / 3 ≠ 2)
        refOut := decide (i / 3 ≠ 2)
        xorOut := if i / 3 = 1 then 0xFFFFFFFFFFFFFFFF else 0xFFFFFFFF
        check := if i / 3 = 0 then 0xCBF43926 else if i / 3 = 1 then 0x995DC9BBDF1939FA else 0xFC891918
        strat := if i % 3 = 0 then .table8 else if i % 3 = 1 then .table4 else .bits } } 0)) ∧
    (9 ≤ i → exec (.ldcat i) s = .next (failed s .eArg)) ∧
    (∀ p : Params,
      (∀ c, p.catalogue[i]? = some c →
        execOn p (.ldcat i) s = .next (answered { s with staging := c.definition } 0)) ∧
      (p.catLen ≤ i → execOn p (.ldcat i) s = .next (failed s .eArg)))

/-- R193, R191: RDCAT of a field answers what RDR of that staging register answers after LDCAT; of the name, its length
and its characters, padded with zeros; it changes nothing; an unassigned selector or entry is `E_ARG`.
R4: the same for any catalogue. -/
def Obligations.RdcatReadsOnePartOfAnEntry : Prop :=
  ∀ (entry sel : Nat) (s : State),
    (entry < 9 →
      let name := ascii
        (if entry / 3 = 0 then "CRC-32/ISO-HDLC" else if entry / 3 = 1 then "CRC-64/XZ" else "CRC-32/BZIP2")
      (sel ≤ 7 → ∃ r t, exec (.rdcat entry sel) s = .next (answered s r) ∧ exec (.ldcat entry) s = .next t ∧
        exec (.rdr sel) t = .next (answered t r)) ∧
      (sel = 8 → exec (.rdcat entry sel) s = .next (answered s (BitVec.ofNat 64 name.length))) ∧
      (0x80 ≤ sel →
        exec (.rdcat entry sel) s = .next (answered s ((name.getD (sel - 0x80) 0).setWidth 64)))) ∧
    (9 ≤ entry ∨ (0x09 ≤ sel ∧ sel ≤ 0x7F) → exec (.rdcat entry sel) s = .next (failed s .eArg)) ∧
    (∀ p : Params,
      (∀ c, p.catalogue[entry]? = some c →
        (sel ≤ 7 → ∃ r t, execOn p (.rdcat entry sel) s = .next (answered s r) ∧ execOn p (.ldcat entry) s = .next t ∧
          execOn p (.rdr sel) t = .next (answered t r)) ∧
        (sel = 8 → execOn p (.rdcat entry sel) s = .next (answered s (BitVec.ofNat 64 c.name.length))) ∧
        (0x80 ≤ sel →
          execOn p (.rdcat entry sel) s = .next (answered s ((c.name.getD (sel - 0x80) 0).setWidth 64)))) ∧
      (p.catLen ≤ entry ∨ (0x09 ≤ sel ∧ sel ≤ 0x7F) → execOn p (.rdcat entry sel) s = .next (failed s .eArg)))

/-- R202, R62: WRB writes the byte at its index and no other byte, and changes nothing else; an index of 4096 or more is
`E_ARG`. R4: the same in a block with another buffer size. -/
def Obligations.WrbWritesOneByte : Prop :=
  ∀ (idx : Nat) (b : Byte) (s : State),
    (idx < 4096 → ∃ t, exec (.wrb idx b) s = .next t ∧ t.memRead idx = b ∧
      (∀ a, a ≠ idx → t.memRead a = s.memRead a) ∧ t = answered { s with buf := t.buf } 0) ∧
    (4096 ≤ idx → exec (.wrb idx b) s = .next (failed s .eArg)) ∧
    (∀ p : Params,
      (idx < p.bufBytes → ∃ t, execOn p (.wrb idx b) s = .next t ∧ t.memRead idx = b ∧
        (∀ a, a ≠ idx → t.memRead a = s.memRead a) ∧ t = answered { s with buf := t.buf } 0) ∧
      (p.bufBytes ≤ idx → execOn p (.wrb idx b) s = .next (failed s .eArg)))

/-- R203, R41: RDB answers the byte at its index, zero extended, and changes nothing; after a WRB there it answers that
byte; an index of 4096 or more is `E_ARG`. R4: the same in a block with another buffer size. -/
def Obligations.RdbReadsOneByte : Prop :=
  ∀ (idx : Nat) (s : State),
    (idx < 4096 → exec (.rdb idx) s = .next (answered s ((s.memRead idx).setWidth 64)) ∧
      ∀ b, ∃ t, runAll [.wrb idx b, .rdb idx] s = .next t ∧ t.responses.head? = some ⟨.ok, b.setWidth 64⟩) ∧
    (4096 ≤ idx → exec (.rdb idx) s = .next (failed s .eArg)) ∧
    (∀ p : Params,
      (idx < p.bufBytes → execOn p (.rdb idx) s = .next (answered s ((s.memRead idx).setWidth 64)) ∧
        ∀ b, ∃ t u, execOn p (.wrb idx b) s = .next t ∧ execOn p (.rdb idx) t = .next u ∧
          u.responses.head? = some ⟨.ok, b.setWidth 64⟩) ∧
      (p.bufBytes ≤ idx → execOn p (.rdb idx) s = .next (failed s .eArg)))

/-- R88: DEFINE stages the eight values it is given, when the registers can hold them, and LOADMSG puts its bytes into
the buffer from its offset on and leaves every other byte; neither changes anything but that and the responses. -/
def Obligations.PseudoCommandsStageAndLoad : Prop :=
  (∀ (bits poly init refin refout xorout check strat : Word) (s : State), 1 ≤ bits.toNat → bits.toNat ≤ 64 →
    refin.toNat ≤ 1 → refout.toNat ≤ 1 → strat.toNat ≤ 2 →
    ∃ t, runAll (pseudoDefine bits poly init refin refout xorout check strat) s = .next t ∧
      readField t.staging .bits = bits ∧ readField t.staging .poly = poly ∧ readField t.staging .init = init ∧
      readField t.staging .refIn = refin ∧ readField t.staging .refOut = refout ∧
      readField t.staging .xorOut = xorout ∧ readField t.staging .check = check ∧
      readField t.staging .strat = strat ∧
      t = { s with staging := t.staging, responses := List.replicate 8 ⟨.ok, 0⟩ ++ s.responses }) ∧
  (∀ (off : Nat) (bytes : List Byte) (s : State), off + bytes.length ≤ 4096 →
    ∃ t, runAll (pseudoLoadmsg off bytes) s = .next t ∧
      (∀ i, i < bytes.length → t.memRead (off + i) = bytes.getD i 0) ∧
      (∀ a, a < off ∨ off + bytes.length ≤ a → t.memRead a = s.memRead a) ∧
      t = { s with buf := t.buf, responses := List.replicate bytes.length ⟨.ok, 0⟩ ++ s.responses })

/-! ### Whole-machine rules -/

/-- R30: `STATUS` shows `EV` in bit 0 and `SS` in bits 2:1, zero above; its values in states that meet the invariant. -/
def Obligations.StatusShowsEngineAndStream : Prop :=
  ∀ s : State, s.status.getLsbD 0 = s.engine.isSome ∧ (s.status.extractLsb' 1 2).toNat = s.ss.code ∧
    s.status.extractLsb' 3 61 = 0 ∧ (s.Inv → s.status = 0 ∨ s.status = 1 ∨ s.status = 3 ∨ s.status = 5)

/-- R38, R182: under the invariant, every masked register, every table entry, the running register and every checksum
that is answered are at most `E_MASK`; and a `CHECK` against a larger `E_CHECK` never succeeds. -/
def Obligations.EveryChecksumIsMasked : Prop :=
  ∀ (s : State) (e : Engine), s.Inv → s.engine = some e →
    e.poly ≤ e.mask ∧ e.init ≤ e.mask ∧ e.xorOut ≤ e.mask ∧ e.crcInit ≤ e.mask ∧ e.rPoly ≤ e.mask ∧
    (∀ x ∈ e.lut, x ≤ e.mask) ∧ (s.ss = .running → ∀ c, s.reg = some c → c ≤ e.mask) ∧
    (∀ (i : Instr) (r : Word) (t : State), i = .final ∨ i = .getchk ∨ i = .check ∨ (∃ len off, i = .compute len off) ∨
        (∃ b, i = .rawb b) ∨ (∃ k, i = .rdlut k) →
      exec i s = .next t → t.responses = ⟨.ok, r⟩ :: s.responses → r ≤ e.mask) ∧
    (e.mask < e.check → exec .check s = .next (failed s .eSelftest))

/-- R39: a stream state other than IDLE has an engine: it holds after reset and every step keeps it. -/
def Obligations.StreamNeedsAnEngine : Prop :=
  (State.reset.ss ≠ .idle → State.reset.engine.isSome = true) ∧
  ∀ s t : State, (s.ss ≠ .idle → s.engine.isSome = true) → step s = .next t → t.ss ≠ .idle → t.engine.isSome = true

/-- The invariant holds after reset. -/
def Obligations.InvariantHoldsAtReset : Prop :=
  State.reset.Inv

/-- The invariant is kept by every step, whatever is presented (R22, R23, R24, R26, R27, R29, R38, R39, R62), and so is
the invariant of a block with any legal parameters by its steps (R4). -/
def Obligations.StepKeepsTheInvariant : Prop :=
  (∀ s t : State, s.Inv → step s = .next t → t.Inv) ∧
  (∀ (p : Params) (s t : State), s.InvOn p → stepOn p s = .next t → t.InvOn p)

/-- R40: no response but FINAL's depends on the running register. -/
def Obligations.RunningRegisterIsHidden : Prop :=
  ∀ (i : Instr) (s t t' : State) (c c' : Word), i ≠ .final →
    exec i { s with reg := some c } = .next t → exec i { s with reg := some c' } = .next t' →
    t.responses = t'.responses

/-- R69: RDR, RDB, RDLUT and RDCAT, when they succeed, change nothing but the response, and repeating one answers the
same value. -/
def Obligations.ReadsHaveNoSideEffect : Prop :=
  ∀ (i : Instr) (s t : State) (q : Response),
    (∃ a, i = .rdr a) ∨ (∃ idx, i = .rdb idx) ∨ (∃ k, i = .rdlut k) ∨ (∃ entry sel, i = .rdcat entry sel) →
    exec i s = .next t → t.responses = q :: s.responses → q.st = .ok →
    t = answered s q.r ∧ exec i t = .next (answered t q.r)
end

