-- ==== Sys2Proof/Laws/Memory.lean ====
section
/-! SUPPORT. The laws of the message buffer: read after write, the canonical form is kept, and two canonical buffers
that read alike whatever the launch bytes are the same list. -/

namespace Sys2Proof.Machine

namespace Memory

@[simp] theorem lookup_nil (a : Nat) : lookup [] a = none := rfl

theorem lookup_cons (k : Nat) (c : Byte) (rest : Memory) (a : Nat) :
    lookup ((k, c) :: rest) a = if a = k then some c else lookup rest a := rfl

/-- The written byte is found at its address, and every other address is as before. -/
theorem lookup_write (m : Memory) (a x : Nat) (b : Byte) :
    lookup (write m a b) x = if x = a then some b else lookup m x := by
  induction m with
  | nil => rfl
  | cons cell rest ih =>
    obtain ⟨k, c⟩ := cell
    simp only [write]
    split
    · simp [lookup_cons]
    · split
      · next h => subst h; by_cases hx : x = a <;> simp [lookup_cons, hx]
      · next h1 h2 =>
        rw [lookup_cons, ih, lookup_cons]
        by_cases hx : x = k <;> by_cases hy : x = a <;> simp [hx, hy] <;> omega

/-- Read after write. -/
theorem readWith_write (launched : Nat → Byte) (m : Memory) (a x : Nat) (b : Byte) :
    readWith launched (write m a b) x = if x = a then b else readWith launched m x := by
  unfold readWith
  rw [lookup_write]
  split <;> rfl

/-- A write inside the bounds keeps the addresses rising inside them. -/
theorem risesWithin_write {lo hi : Nat} {m : Memory} (h : risesWithin lo hi m = true) {a : Nat} (hlo : lo ≤ a)
    (hhi : a < hi) (b : Byte) : risesWithin lo hi (write m a b) = true := by
  induction m generalizing lo with
  | nil => simp [write, risesWithin, hlo, hhi]
  | cons cell rest ih =>
    obtain ⟨k, c⟩ := cell
    simp only [risesWithin, Bool.and_eq_true, decide_eq_true_eq] at h
    obtain ⟨⟨hk, hk'⟩, hrest⟩ := h
    simp only [write]
    split
    · next hak =>
      simp only [risesWithin, Bool.and_eq_true, decide_eq_true_eq]
      exact ⟨⟨hlo, hhi⟩, ⟨by omega, hk'⟩, hrest⟩
    · split
      · next heq =>
        subst heq
        simp only [risesWithin, Bool.and_eq_true, decide_eq_true_eq]
        exact ⟨⟨hlo, hhi⟩, hrest⟩
      · next h1 h2 =>
        simp only [risesWithin, Bool.and_eq_true, decide_eq_true_eq]
        exact ⟨⟨hk, hk'⟩, ih hrest (by omega)⟩

/-- A write inside the buffer keeps the canonical form. -/
theorem wf_write {p : Params} {m : Memory} (h : wf p m = true) {a : Nat} (ha : a < p.bufBytes) (b : Byte) :
    wf p (write m a b) = true := risesWithin_write h (Nat.zero_le a) ha b

/-- Below its first address a canonical list holds nothing. -/
theorem lookup_below {lo hi : Nat} {m : Memory} (h : risesWithin lo hi m = true) {x : Nat} (hx : x < lo) :
    lookup m x = none := by
  induction m generalizing lo with
  | nil => rfl
  | cons cell rest ih =>
    obtain ⟨k, c⟩ := cell
    simp only [risesWithin, Bool.and_eq_true, decide_eq_true_eq] at h
    rw [lookup_cons, if_neg (by omega)]
    exact ih h.2 (by omega)

/-- Two canonical lists with the same written bytes are equal. -/
theorem ext_lookup {lo hi : Nat} {m n : Memory} (hm : risesWithin lo hi m = true) (hn : risesWithin lo hi n = true)
    (h : ∀ a, lookup m a = lookup n a) : m = n := by
  induction m generalizing lo n with
  | nil =>
    cases n with
    | nil => rfl
    | cons cell rest =>
      have := h cell.1
      simp [lookup] at this
  | cons cell rest ih =>
    obtain ⟨k, c⟩ := cell
    cases n with
    | nil =>
      have := h k
      simp [lookup] at this
    | cons cell' rest' =>
      obtain ⟨k', c'⟩ := cell'
      simp only [risesWithin, Bool.and_eq_true, decide_eq_true_eq] at hm hn
      have hkk : k = k' := by
        by_contra hne
        rcases Nat.lt_or_gt_of_ne hne with hlt | hlt
        · have h1 := h k
          rw [lookup_cons, lookup_cons, if_pos rfl, if_neg hne,
            lookup_below hn.2 (by omega : k < k' + 1)] at h1
          exact absurd h1 (by simp)
        · have h1 := h k'
          rw [lookup_cons, lookup_cons, if_pos rfl, if_neg (Ne.symm hne),
            lookup_below hm.2 (by omega : k' < k + 1)] at h1
          exact absurd h1 (by simp)
      subst hkk
      have hc : c = c' := by simpa [lookup_cons] using h k
      subst hc
      have htail : rest = rest' := by
        refine ih hm.2 hn.2 fun a => ?_
        by_cases ha : a = k
        · subst ha
          rw [lookup_below hm.2 (Nat.lt_succ_self a), lookup_below hn.2 (Nat.lt_succ_self a)]
        · simpa [lookup_cons, ha] using h a
      rw [htail]

/-- Canonical buffers that read alike for every launch contents are the same list: the list is a canonical name of
what is known of the buffer (log 3). -/
theorem ext_readWith {p : Params} {m n : Memory} (hm : wf p m = true) (hn : wf p n = true)
    (h : ∀ launched a, readWith launched m a = readWith launched n a) : m = n := by
  refine ext_lookup hm hn fun a => ?_
  have h0 := h (fun _ => 0) a
  have h1 := h (fun _ => 1) a
  unfold readWith at h0 h1
  have clash : ∀ b : Byte, 0 = b → 1 = b → False := fun b h h' => absurd (h.trans h'.symm) (by decide)
  cases hma : lookup m a <;> cases hna : lookup n a <;> rw [hma, hna] at h0 h1 <;> simp only [Option.getD] at h0 h1
  · exact (clash _ h0 h1).elim
  · exact (clash _ h0.symm h1.symm).elim
  · exact congrArg some h0

end Memory

/-- Reading the buffer after a write. -/
@[simp] theorem memRead_memWrite (s : State) (a x : Nat) (b : Byte) :
    (s.memWrite a b).memRead x = if x = a then b else s.memRead x :=
  Memory.readWith_write _ _ _ _ _

@[simp] theorem chunk_length (s : State) (len off : Nat) : (s.chunk len off).length = len := by simp [State.chunk]

/-- A chunk is cut into two contiguous chunks. -/
theorem chunk_add (s : State) (m n off : Nat) : s.chunk (m + n) off = s.chunk m off ++ s.chunk n (off + m) := by
  simp [State.chunk, List.range_add, Nat.add_assoc, Function.comp_def]

/-- A chunk depends on its own bytes only. -/
theorem chunk_congr {s t : State} {len off : Nat} (h : ∀ a, off ≤ a → a < off + len → s.memRead a = t.memRead a) :
    s.chunk len off = t.chunk len off := by
  refine List.map_congr_left fun i hi => h _ (Nat.le_add_right _ _) ?_
  have := List.mem_range.mp hi
  omega

theorem reset_buf_wf : Memory.wf hardware State.reset.buf = true := rfl

end Sys2Proof.Machine
end

