-- ==== Sys2Proof/Laws/State.lean ====
section
/-! SUPPORT. What each named update of the state does to each field: one lemma a field, all by definition. -/

namespace Sys2Proof.Machine

variable (s : State)

section answer
variable (st : Status) (r : Word)
@[simp] theorem answer_staging : (s.answer st r).staging = s.staging := rfl
@[simp] theorem answer_engine : (s.answer st r).engine = s.engine := rfl
@[simp] theorem answer_ss : (s.answer st r).ss = s.ss := rfl
@[simp] theorem answer_reg : (s.answer st r).reg = s.reg := rfl
@[simp] theorem answer_err : (s.answer st r).err = s.err := rfl
@[simp] theorem answer_buf : (s.answer st r).buf = s.buf := rfl
@[simp] theorem answer_launch : (s.answer st r).launch = s.launch := rfl
@[simp] theorem answer_port : (s.answer st r).port = s.port := rfl
@[simp] theorem answer_responses : (s.answer st r).responses = ⟨st, r⟩ :: s.responses := rfl
@[simp] theorem answer_memRead (a : Nat) : (s.answer st r).memRead a = s.memRead a := rfl
end answer

section memWrite
variable (a : Nat) (b : Byte)
@[simp] theorem memWrite_staging : (s.memWrite a b).staging = s.staging := rfl
@[simp] theorem memWrite_engine : (s.memWrite a b).engine = s.engine := rfl
@[simp] theorem memWrite_ss : (s.memWrite a b).ss = s.ss := rfl
@[simp] theorem memWrite_reg : (s.memWrite a b).reg = s.reg := rfl
@[simp] theorem memWrite_err : (s.memWrite a b).err = s.err := rfl
@[simp] theorem memWrite_buf : (s.memWrite a b).buf = Memory.write s.buf a b := rfl
@[simp] theorem memWrite_launch : (s.memWrite a b).launch = s.launch := rfl
@[simp] theorem memWrite_port : (s.memWrite a b).port = s.port := rfl
@[simp] theorem memWrite_responses : (s.memWrite a b).responses = s.responses := rfl
end memWrite

@[simp] theorem softReset_staging : s.softReset.staging = resetStaging := rfl
@[simp] theorem softReset_engine : s.softReset.engine = none := rfl
@[simp] theorem softReset_ss : s.softReset.ss = .idle := rfl
@[simp] theorem softReset_reg : s.softReset.reg = none := rfl
@[simp] theorem softReset_err : s.softReset.err = 0 := rfl
@[simp] theorem softReset_buf : s.softReset.buf = s.buf := rfl
@[simp] theorem softReset_launch : s.softReset.launch = s.launch := rfl
@[simp] theorem softReset_port : s.softReset.port = s.port := rfl
@[simp] theorem softReset_responses : s.softReset.responses = s.responses := rfl

@[simp] theorem hardReset_staging : s.hardReset.staging = resetStaging := rfl
@[simp] theorem hardReset_engine : s.hardReset.engine = none := rfl
@[simp] theorem hardReset_ss : s.hardReset.ss = .idle := rfl
@[simp] theorem hardReset_reg : s.hardReset.reg = none := rfl
@[simp] theorem hardReset_err : s.hardReset.err = 0 := rfl
@[simp] theorem hardReset_buf : s.hardReset.buf = [] := rfl
@[simp] theorem hardReset_launch : s.hardReset.launch = s.launch + 1 := rfl
@[simp] theorem hardReset_port : s.hardReset.port = s.port := rfl
@[simp] theorem hardReset_responses : s.hardReset.responses = s.responses := rfl

@[simp] theorem popPort_staging : s.popPort.staging = s.staging := rfl
@[simp] theorem popPort_engine : s.popPort.engine = s.engine := rfl
@[simp] theorem popPort_ss : s.popPort.ss = s.ss := rfl
@[simp] theorem popPort_reg : s.popPort.reg = s.reg := rfl
@[simp] theorem popPort_err : s.popPort.err = s.err := rfl
@[simp] theorem popPort_buf : s.popPort.buf = s.buf := rfl
@[simp] theorem popPort_launch : s.popPort.launch = s.launch := rfl
@[simp] theorem popPort_port : s.popPort.port = s.port.tail := rfl
@[simp] theorem popPort_responses : s.popPort.responses = s.responses := rfl
@[simp] theorem popPort_memRead (a : Nat) : s.popPort.memRead a = s.memRead a := rfl

/-- Presenting a word and taking it again leaves the state as it was. -/
@[simp] theorem popPort_present (w : CommandWord) : (s.present w).popPort = s := rfl

end Sys2Proof.Machine
end

