-- ==== Sys2Proof/Laws/Ops.lean ====
section
/-! SUPPORT. What the shared operations can do, said once. -/

namespace Sys2Proof.Machine

/-- `respond` always ends in the next state with one more response. -/
theorem respond_eq_next {s t : State} {v : Word} (h : s.respond v = .next t) : t = s.answer .ok v := by
  simpa [State.respond] using h.symm

/-- `raise` always ends in the next state with one more response and the `ERR` bit set. -/
theorem raise_eq_next {s t : State} {st : Status} (h : s.raise st = .next t) :
    t = { s with err := s.err ||| errBit st, responses := ⟨st, 0⟩ :: s.responses } := by
  simpa [State.raise, State.answer, stickyError] using h.symm

/-- A running stream is exactly RUNNING with an engine and a register value. -/
theorem stream?_eq_some {s : State} {e : Engine} {c : Word} :
    s.stream? = some (e, c) ↔ s.ss = .running ∧ s.engine = some e ∧ s.reg = some c := by
  unfold State.stream?
  split
  · simp_all
  · constructor
    · intro h
      cases h
    · rintro ⟨h1, h2, h3⟩
      simp_all

theorem stream?_eq_none_of_not_running {s : State} (h : s.ss ≠ .running) : s.stream? = none := by
  unfold State.stream?
  split
  · simp_all
  · rfl

/-- The bit a failing status sets is the bit of its code (R29). -/
theorem errBit_eq_shift {st : Status} (h : st ≠ .ok) : errBit st = 1 <<< st.code := by
  cases st <;> first | exact absurd rfl h | rfl

/-- Processing a message in two parts (R181). -/
theorem updMsg_append (e : Engine) (c : Word) (m n : List Byte) :
    updMsg e c (m ++ n) = updMsg e (updMsg e c m) n := List.foldl_append

@[simp] theorem updMsg_nil (e : Engine) (c : Word) : updMsg e c [] = c := rfl

@[simp] theorem updMsg_cons (e : Engine) (c : Word) (b : Byte) (m : List Byte) :
    updMsg e c (b :: m) = updMsg e (upd e c b) m := rfl

/-- What a step does, by what it takes from the port, whatever its commands do. -/
theorem stepWith_cases (run : Instr → State → Result) (s : State) :
    (s.takes = .idle ∧ stepWith run s = .next s) ∨
    (s.takes = .hardReset ∧ stepWith run s = .next s.popPort.hardReset) ∨
    (∃ i, s.takes = .run i ∧ stepWith run s = run i s.popPort) ∨
    (∃ why, s.takes = .illegal why ∧ stepWith run s = s.popPort.raise .eIllegal) := by
  unfold stepWith
  cases h : s.takes with
  | idle => exact .inl ⟨rfl, rfl⟩
  | hardReset => exact .inr (.inl ⟨rfl, rfl⟩)
  | run i => exact .inr (.inr (.inl ⟨i, rfl, rfl⟩))
  | illegal why => exact .inr (.inr (.inr ⟨why, rfl, rfl⟩))

/-- The same for a step of this hardware. -/
theorem step_cases (s : State) :
    (s.takes = .idle ∧ step s = .next s) ∨
    (s.takes = .hardReset ∧ step s = .next s.popPort.hardReset) ∨
    (∃ i, s.takes = .run i ∧ step s = exec i s.popPort) ∨
    (∃ why, s.takes = .illegal why ∧ step s = s.popPort.raise .eIllegal) := stepWith_cases exec s

/-- A presented word is the next command taken. -/
theorem takes_present (s : State) (w : CommandWord) :
    (s.present w).takes = match decode w with
      | .ok i => .run i
      | .error why => .illegal why := rfl

end Sys2Proof.Machine
end

