-- ==== Sys2Proof/Laws/Block.lean ====
section
/-! SUPPORT. This hardware is the block with the parameters `hardware`; the parameters matter to seven commands only. -/

namespace Sys2Proof.Machine

/-- A command of this hardware is that command of the block with its parameters. -/
theorem exec_eq_execOn (i : Instr) (s : State) : exec i s = execOn hardware i s := by cases i <;> rfl

/-- A step of this hardware is a step of the block with its parameters. -/
theorem step_eq_stepOn (s : State) : step s = stepOn hardware s :=
  congrArg (stepWith · s) (funext fun i => funext fun t => exec_eq_execOn i t)

theorem catLen_hardware : hardware.catLen = 9 := rfl
theorem bufBytes_hardware : hardware.bufBytes = 4096 := rfl

/-- An index below `CATLEN` names an entry. -/
theorem catalogueEntry?_of_lt {p : Params} {i : Nat} (h : i < p.catLen) : catalogueEntry? p i = some p.catalogue[i] :=
  List.getElem?_eq_getElem h

/-- No other index does. -/
theorem catalogueEntry?_of_le {p : Params} {i : Nat} (h : p.catLen ≤ i) : catalogueEntry? p i = none :=
  List.getElem?_eq_none h

end Sys2Proof.Machine
end

