-- ==== Sys2Proof/Laws/PerInstr.lean ====
section
/-! SUPPORT. Families of statements proved command by command. `EncodedFields`: the four fields of a command's word are
`op` of spec/30_encoding.md R84, `rsv` zero, and its two operands (R80, R83). -/

namespace Sys2Proof.Laws

/-- The fields of an assembled word are what it was assembled from (R80). -/
theorem fields_commandWord (op rsv : Byte) (a : BitVec 16) (v : Word) :
    opField (commandWord op rsv a v) = op ∧ rsvField (commandWord op rsv a v) = rsv ∧
    aField (commandWord op rsv a v) = a ∧ vField (commandWord op rsv a v) = v := by
  refine ⟨?_, ?_, ?_, ?_⟩ <;> refine BitVec.eq_of_getLsbD_eq fun i hi => ?_ <;>
    simp only [opField, rsvField, aField, vField, commandWord, BitVec.getLsbD_extractLsb', BitVec.getLsbD_append]
  · simp [hi, show ¬ 88 + i < 64 by omega, show ¬ 88 + i - 64 < 16 by omega, show ¬ 88 + i - 64 - 16 < 8 by omega,
      show 88 + i - 64 - 16 - 8 = i by omega]
  · simp [hi, show ¬ 80 + i < 64 by omega, show ¬ 80 + i - 64 < 16 by omega, show 80 + i - 64 - 16 = i by omega]
  · simp [hi, show ¬ 64 + i < 64 by omega]
  · simp [hi]

namespace EncodedFields

def Statement (i : Instr) : Prop :=
  opField (encode i) = i.opcode ∧ rsvField (encode i) = 0 ∧
  aField (encode i) = i.aOperand ∧ vField (encode i) = i.vOperand

theorem nop : Statement .nop := fields_commandWord _ _ _ _
theorem rst : Statement .rst := fields_commandWord _ _ _ _
theorem wrd (reg : Nat) (v : Word) : Statement (.wrd reg v) := fields_commandWord _ _ _ _
theorem rdr (reg : Nat) : Statement (.rdr reg) := fields_commandWord _ _ _ _
theorem cons : Statement .cons := fields_commandWord _ _ _ _
theorem refl (n : Nat) (v : Word) : Statement (.refl n v) := fields_commandWord _ _ _ _
theorem rawb (b : Byte) : Statement (.rawb b) := fields_commandWord _ _ _ _
theorem rdlut (k : Nat) : Statement (.rdlut k) := fields_commandWord _ _ _ _
theorem begin : Statement .begin := fields_commandWord _ _ _ _
theorem upd (len off : Nat) : Statement (.upd len off) := fields_commandWord _ _ _ _
theorem updb (b : Byte) : Statement (.updb b) := fields_commandWord _ _ _ _
theorem final : Statement .final := fields_commandWord _ _ _ _
theorem compute (len off : Nat) : Statement (.compute len off) := fields_commandWord _ _ _ _
theorem getchk : Statement .getchk := fields_commandWord _ _ _ _
theorem check : Statement .check := fields_commandWord _ _ _ _
theorem ldcat (i : Nat) : Statement (.ldcat i) := fields_commandWord _ _ _ _
theorem rdcat (entry sel : Nat) : Statement (.rdcat entry sel) := fields_commandWord _ _ _ _
theorem wrb (idx : Nat) (b : Byte) : Statement (.wrb idx b) := fields_commandWord _ _ _ _
theorem rdb (idx : Nat) : Statement (.rdb idx) := fields_commandWord _ _ _ _

end EncodedFields

end Sys2Proof.Laws
end

