-- ==== Sys2Proof/Tests/Slice0.lean ====
section
/-! SUPPORT. Small tests with results from spec/95_test_vectors.md and spec/96_test_vectors_more.md, the ill-formed terms
`Instr.wellFormed` refuses, and for every statement with hypotheses a state and operands that meet them. -/

/- The kernel evaluates many of these; one after the other they need few threads. -/
set_option Elab.async false

namespace Sys2Proof.Tests

open Sys2Proof Sys2Proof.Machine

/-! ### Helpers -/

/-- The state a command ends in, if it ends in one. -/
def nextOf (o : Result) : Option State :=
  match o with
  | .next s => some s
  | .fault _ => none
  | .refused _ => none

/-- The response a command gives. -/
def responseOf (o : Result) : Option Response := (nextOf o).bind fun s => s.responses.head?

/-- A state with the given staging registers and the engine CONS builds from them. -/
def loaded (d : Definition) : State := { State.reset with staging := d, engine := some (construct d) }

/-- The same with a stream running at register value `c`. -/
def streaming (d : Definition) (c : Word) : State := { loaded d with ss := .running, reg := some c }

/-- The check message in `BUF[0..8]`. -/
def withMessage (s : State) : State :=
  { s with buf := [(0, 0x31), (1, 0x32), (2, 0x33), (3, 0x34), (4, 0x35), (5, 0x36), (6, 0x37), (7, 0x38), (8, 0x39)] }

/-- Row V3 of 96 section 7: width 3. -/
def width3 (σ : Strategy) : Definition := ⟨3, 0x3, 0x0, false, false, 0x7, 0x4, σ⟩

/-- Row V11 of 96 section 7: width 13, reflected in, not out. -/
def width13 (σ : Strategy) : Definition := ⟨13, 0x1CF5, 0x1ABC, true, false, 0x0F0F, 0x1C7B, σ⟩

/-- Row V1 of 96 section 7: width 1. -/
def width1 (σ : Strategy) : Definition := ⟨1, 0x1, 0x0, false, false, 0x0, 0x1, σ⟩

/-- A block with the smallest buffer (D18); that the record admits an empty catalogue is the model's choice (log 16). -/
def tiny : Params := ⟨1, [], by decide⟩

/-- A block with the largest buffer (R4) and a catalogue of one entry (log 16). -/
def large : Params := ⟨65536, [entry (crc32IsoHdlc .bits) nameIsoHdlc], by decide⟩

/-! ### Ill-formed terms -/

theorem test_wellFormed_wrd : (Instr.wrd 65536 0).wellFormed = false := by decide
theorem test_wellFormed_rdr : (Instr.rdr 65536).wellFormed = false := by decide
theorem test_wellFormed_refl : (Instr.refl 65536 0).wellFormed = false := by decide
theorem test_wellFormed_rdlut : (Instr.rdlut 65536).wellFormed = false := by decide
theorem test_wellFormed_upd_len : (Instr.upd 65536 0).wellFormed = false := by decide
theorem test_wellFormed_upd_off : (Instr.upd 0 65536).wellFormed = false := by decide
theorem test_wellFormed_compute_len : (Instr.compute 65536 0).wellFormed = false := by decide
theorem test_wellFormed_compute_off : (Instr.compute 0 65536).wellFormed = false := by decide
theorem test_wellFormed_ldcat : (Instr.ldcat 65536).wellFormed = false := by decide
theorem test_wellFormed_rdcat_entry : (Instr.rdcat 256 0).wellFormed = false := by decide
theorem test_wellFormed_rdcat_sel : (Instr.rdcat 0 256).wellFormed = false := by decide
theorem test_wellFormed_wrb : (Instr.wrb 65536 0).wellFormed = false := by decide
theorem test_wellFormed_rdb : (Instr.rdb 65536).wellFormed = false := by decide

/-! ### Decoding: words written from the fields of R80 and the opcodes of R84 -/

theorem test_decode_nop : decode 0x000000000000000000000000 = .ok .nop := by decide
theorem test_decode_rst : decode 0x010000000000000000000000 = .ok .rst := by decide
theorem test_decode_wrd : decode 0x020000010000000004C11DB7 = .ok (.wrd 1 0x04C11DB7) := by decide
theorem test_decode_rdr : decode 0x0300001B0000000000000000 = .ok (.rdr 0x1B) := by decide
theorem test_decode_cons : decode 0x040000000000000000000000 = .ok .cons := by decide
theorem test_decode_refl : decode 0x0800FFFF0000000000000000 = .ok (.refl 65535 0) := by decide
theorem test_decode_rawb : decode 0x0900AB310000000000000000 = .ok (.rawb 0x31) := by decide
theorem test_decode_rdlut : decode 0x0A00012C0000000000000000 = .ok (.rdlut 300) := by decide
theorem test_decode_begin : decode 0x100000000000000000000000 = .ok .begin := by decide
theorem test_decode_upd : decode 0x110000050000000000000004 = .ok (.upd 5 4) := by decide
theorem test_decode_updb : decode 0x120000310000000000000000 = .ok (.updb 0x31) := by decide
theorem test_decode_final : decode 0x130000000000000000000000 = .ok .final := by decide
theorem test_decode_compute : decode 0x1400000900000000FFFF0002 = .ok (.compute 9 2) := by decide
theorem test_decode_getchk : decode 0x150000000000000000000000 = .ok .getchk := by decide
theorem test_decode_check : decode 0x160000000000000000000000 = .ok .check := by decide
theorem test_decode_ldcat : decode 0x180000040000000000000000 = .ok (.ldcat 4) := by decide
theorem test_decode_rdcat : decode 0x1900068C0000000000000000 = .ok (.rdcat 6 0x8C) := by decide
theorem test_decode_wrb : decode 0x1C000FFF0000000000000180 = .ok (.wrb 4095 0x80) := by decide
theorem test_decode_rdb : decode 0x1D0010000000000000000000 = .ok (.rdb 4096) := by decide
theorem test_decode_reserved : decode 0x000100000000000000000000 = .error (.reservedNotZero 1) := by decide
theorem test_decode_undefined : decode 0xFF0000000000000000000000 = .error (.undefinedOpcode 0xFF) := by decide

/-- The listing form of R87, word from 96 section 8 row 15. -/
theorem test_listing : listingLine 15 (.rdcat 3 0x87) = "15: 190003870000000000000000  RDCAT 3, 135" := by decide

/-! ### One step of each command -/

/-- 96 section 8 row 0, presented as a table word after reset. -/
theorem test_nop : responseOf (step (State.reset.withFetchWord 96 0)) = some ⟨.ok, 0⟩ := by decide

/-- 96 section 9 row 3: NOP with `rsv = 1`. -/
theorem test_illegal : (nextOf (step (State.reset.withFetchWord 96 0x000100000000000000000000))).map (·.err) =
    some 2 := by decide

/-- 46 R201: RST clears `ERR` and the engine. -/
theorem test_rst : (nextOf (exec .rst { loaded (width3 .bits) with err := 0x1C })).map
    (fun s => (s.err, s.engine, s.staging)) = some (0, none, resetStaging) := by decide +kernel

/-- 95 section 5 row 9: the whole 64-bit value is compared. -/
theorem test_wrd_not_truncated : responseOf (exec (.wrd 0 0x100000020) State.reset) = some ⟨.eArg, 0⟩ := by decide

/-- 95 section 5 row 10: the largest width. -/
theorem test_wrd_width64 : (nextOf (exec (.wrd 0 0x40) State.reset)).map (·.staging.bits) = some 64 := by decide

/-- 95 section 5, table of derived registers: width 13, init 0x1ABC, reflected. -/
theorem test_rdr_crcInit : responseOf (exec (.rdr 0x1A) (loaded (width13 .bits))) = some ⟨.ok, 0x7AB⟩ := by
  decide +kernel

/-- 95 section 5 row 4: no engine. -/
theorem test_rdr_no_engine : responseOf (exec (.rdr 0x10) State.reset) = some ⟨.eState, 0⟩ := by decide

/-- 95 section 4.1: S3, the 4-bit table of normal mode (90_conflicts.md C1). -/
theorem test_cons_table4 : (nextOf (exec .cons { State.reset with staging := crc32Bzip2 .table4 })).bind
    (fun s => s.engine.map fun e => (e.lut.length, e.lut[1]?, e.lut[15]?)) =
      some (16, some 0x04C11DB7, some 0x384FBDBD) := by decide +kernel

/-- 95 section 5 table: width 63, `E_RPOLY`. -/
theorem test_cons_rpoly : (nextOf (exec .cons { State.reset with staging :=
    ⟨63, 0x42F0E1EBA9EA3693, 1, true, false, 0, 0, .bits⟩ })).bind
    (fun s => s.engine.map fun e => (e.rPoly, e.crcInit, e.mask)) =
      some (0x64B62BCAEBC387A1, 0x4000000000000000, 0x7FFFFFFFFFFFFFFF) := by decide +kernel

/-- 95 section 2: bits 60 to 63 are ignored. -/
theorem test_refl : responseOf (exec (.refl 60 0x123456789ABCDEF0) State.reset) = some ⟨.ok, 0xF7B3D591E6A2C4⟩ := by
  decide +kernel

/-- 95 section 3.2, S3. -/
theorem test_rawb : responseOf (exec (.rawb 0x31) (loaded (crc32Bzip2 .table4))) = some ⟨.ok, 0xD0F37027⟩ := by
  decide +kernel

/-- 95 section 4.2, S1: an entry of the 8-bit table. -/
theorem test_rdlut : responseOf (exec (.rdlut 255) (loaded (crc32IsoHdlc .table8))) = some ⟨.ok, 0x2D02EF8D⟩ := by
  decide +kernel

/-- 44 R171: BEGIN starts from `E_CRCINIT`. -/
theorem test_begin : (nextOf (exec .begin (loaded (width13 .bits)))).map (fun s => (s.reg, s.ss)) =
    some (some 0x07AB, .running) := by decide +kernel

/-- 44 R172: `UPD 4, 0` of the check message, S1. -/
theorem test_upd : (nextOf (exec (.upd 4 0) (withMessage (streaming (crc32IsoHdlc .bits) 0xFFFFFFFF)))).map (·.reg) =
    some (some 0x641C1F5C) := by decide +kernel

/-- 95 section 4.3: one byte through the 4-bit table, S2. -/
theorem test_updb : (nextOf (exec (.updb 0x31) (streaming (crc64Xz .table4) 0xFFFFFFFFFFFFFFFF))).map (·.reg) =
    some (some 0xD5D0F17A6B6A3512) := by decide +kernel

/-- 95 section 6.4: width 13, reflected at the end. -/
theorem test_final : responseOf (exec .final (streaming (width13 .bits) 0x05D9)) = some ⟨.ok, 0x1C7B⟩ := by
  decide +kernel

/-- 95 section 6.2: the prefix of seven bytes, S3. -/
theorem test_compute : responseOf (exec (.compute 7 0) (withMessage (loaded (crc32Bzip2 .table4)))) =
    some ⟨.ok, 0xF275EB3B⟩ := by decide +kernel

/-- 96 section 7 V3, Table4. -/
theorem test_getchk : responseOf (exec .getchk (loaded (width3 .table4))) = some ⟨.ok, 0x4⟩ := by decide +kernel

/-- 44 R178: a wrong constant. -/
theorem test_check : (nextOf (exec .check (loaded { width3 .bits with check := 0x104 }))).map (·.err) = some 0x10 := by
  decide +kernel

/-- 45 R192: entry 4. -/
theorem test_ldcat : (nextOf (exec (.ldcat 4) State.reset)).map (fun s => (s.staging.bits, s.staging.strat)) =
    some (64, .table4) := by decide

/-- 96 section 8 row 19: 'B'. -/
theorem test_rdcat : responseOf (exec (.rdcat 6 0x87) State.reset) = some ⟨.ok, 0x42⟩ := by decide

/-- 96 section 8 rows 37 and 38. -/
theorem test_wrb : (nextOf (exec (.wrb 4095 0x80) State.reset)).map (fun s => s.memRead 4095) = some 0x80 := by decide

/-- 46 R203: an unwritten byte answers the free byte, whatever it is. -/
theorem test_rdb_unwritten : responseOf (exec (.rdb 5) State.reset) =
    some ⟨.ok, (Config.launchByte 0 5).setWidth 64⟩ := rfl

/-! ### Witnesses: the hypotheses of the statements can be met -/

theorem wf_iso (σ : Strategy) : (construct (crc32IsoHdlc σ)).Wf := by
  cases σ <;> exact ⟨by decide, by decide, by decide +kernel⟩
theorem wf_xz (σ : Strategy) : (construct (crc64Xz σ)).Wf := by
  cases σ <;> exact ⟨by decide, by decide, by decide +kernel⟩
theorem wf_width1 (σ : Strategy) : (construct (width1 σ)).Wf := by
  cases σ <;> exact ⟨by decide, by decide, by decide +kernel⟩
theorem wf_width13 (σ : Strategy) : (construct (width13 σ)).Wf := by
  cases σ <;> exact ⟨by decide, by decide, by decide +kernel⟩

/-- A state in the middle of a stream meets the invariant. -/
theorem inv_streaming : (streaming (crc32IsoHdlc .table4) 0x641C1F5C).Inv where
  staging_bits := by decide
  engine_wf := fun e h => by
    have : construct (crc32IsoHdlc .table4) = e := Option.some.inj h
    exact this ▸ wf_iso .table4
  stream_has := fun _ => ⟨rfl, rfl⟩
  reg_masked := fun _ e c h h' => by
    have he : construct (crc32IsoHdlc .table4) = e := Option.some.inj h
    have hc : (0x641C1F5C : Word) = c := Option.some.inj h'
    exact he ▸ hc ▸ (by decide +kernel)
  err_reserved := fun k _ => by simp [streaming, loaded, State.reset]
  buf_wf := rfl

theorem witness_DecodeInvertsEncode : (Instr.upd 65535 65535).wellFormed = true ∧
    (Instr.rdcat 255 255).wellFormed = true := by decide
theorem witness_DecodedCommandFitsItsWord : decode 0x11001388FFFFFFFFFFFF0001 = .ok (.upd 5000 1) := by decide
theorem witness_IgnoredBitsDoNotMatter : decode 0x0900AB310000000000000001 = .ok (.rawb 0x31) ∧
    (0x090000310000000000000000 : CommandWord) &&& usedBits (.rawb 0x31) =
      0x0900AB310000000000000001 &&& usedBits (.rawb 0x31) := by decide
theorem witness_IllegalWordsAreRefusedExactly_reserved :
    (State.reset.present 0x00FF00000000000000000000).port = [.command 0x00FF00000000000000000000] ∧
    rsvField 0x00FF00000000000000000000 ≠ 0 := by decide
theorem witness_IllegalWordsAreRefusedExactly_opcode :
    opField 0x050000000000000000000000 ∉ definedOpcodes ∧ opField 0x1E0000000000000000000000 ∉ definedOpcodes := by decide
theorem witness_IllegalWordsAreRefusedExactly_legal :
    rsvField 0x1D0000000000000000000000 = 0 ∧ opField 0x1D0000000000000000000000 ∈ definedOpcodes := by decide
theorem witness_StepRunsTheDecodedCommand :
    (State.reset.present 0x1D0000050000000000000000).port = .command 0x1D0000050000000000000000 :: [] ∧
    decode 0x1D0000050000000000000000 = .ok (.rdb 5) ∧
    decodeTableWord 96 0x1D0000050000000000000000 = some (.rdb 5) := by decide
theorem witness_StepRunsTheDecodedCommand_idle : State.reset.port = [] := rfl
theorem witness_StepRunsTheDecodedCommand_parameters : (Instr.rdr 0x21) ≠ .rdr 0x22 ∧ (Instr.rdr 0x21) ≠ .rdr 0x23 ∧
    responseOf (stepOn tiny (State.reset.present 0x1D0000000000000000000000)) = some ⟨.ok, (Config.launchByte 0 0).setWidth 64⟩ ∧
    responseOf (stepOn tiny (State.reset.present 0x1D0000010000000000000000)) = some ⟨.eArg, 0⟩ :=
  ⟨by decide, by decide, rfl, by decide⟩
theorem witness_HardwareResetLeavesTheResetState :
    { loaded (width3 .bits) with port := [.hardReset, .command 0] }.port = .hardReset :: [.command 0] := rfl
theorem witness_FailedCommandChangesNothingElse :
    (nextOf (step (State.reset.present 0x100000000000000000000000))).map (fun t => (t.responses, t.err)) =
      some ([⟨.eState, 0⟩], 4) := by decide
theorem witness_ErrorFlagsAreSticky :
    (nextOf (step ({ State.reset with err := 8 }.present 0x100000000000000000000000))).map (·.err) = some 0xC ∧
    (nextOf (step ({ State.reset with err := 8 }.present 0x010000000000000000000000))).map (·.err) = some 0 := by decide
theorem witness_StatusesAreRaisedExactlyWhenListed : State.Inv (streaming (crc32IsoHdlc .table4) 0x641C1F5C) :=
  inv_streaming
theorem witness_WrdWritesOneStagingRegister : ¬ BadOperand (.wrd Field.bits.index 64) State.reset ∧
    ¬ BadOperand (.wrd Field.refIn.index 1) State.reset ∧ ¬ BadOperand (.wrd Field.strat.index 2) State.reset := by
  simp [BadOperandOn, Field.index]
theorem witness_WrdWritesOneStagingRegister_bad : BadOperand (.wrd 8 0) State.reset ∧
    BadOperand (.wrd 0 65) State.reset ∧ BadOperand (.wrd 0 0) State.reset ∧ BadOperand (.wrd 4 2) State.reset ∧
    BadOperand (.wrd 7 3) State.reset := by simp [BadOperandOn]
theorem witness_RdrReadsEveryRegister : (loaded (width3 .table4)).engine = some (construct (width3 .table4)) ∧
    State.reset.engine = none ∧ BadOperand (.rdr 8) State.reset ∧ BadOperand (.rdr 0x0F) State.reset ∧
    BadOperand (.rdr 0x1C) State.reset ∧ BadOperand (.rdr 0x24) State.reset := by
  refine ⟨rfl, rfl, ?_, ?_, ?_, ?_⟩ <;> simp [BadOperandOn]
theorem witness_ConsBuildsTheEngine : (width1 .bits).bits.toNat = 1 ∧ (crc64Xz .table8).bits.toNat = 64 ∧
    resetStaging.bits.toNat < 1 ∧ 64 < { resetStaging with bits := 65 }.bits.toNat := by decide
theorem witness_EngineChangesOnlyByConsOrRst :
    (nextOf (exec .cons { loaded (width3 .bits) with staging := resetStaging })).map (·.responses) =
      some [⟨.eArg, 0⟩] := by decide
theorem witness_StagingChangesOnlyByWrdLdcatRst : exec .nop State.reset = .next (answered State.reset 0) := rfl
theorem witness_StreamStateMovesAsListed :
    responseOf (exec .begin (loaded (width3 .bits))) = some ⟨.ok, 0⟩ ∧
    (responseOf (exec .final (streaming (width3 .bits) 0))).map (·.st) = some .ok ∧
    responseOf (exec .cons (streaming (width3 .bits) 0)) = some ⟨.ok, 0⟩ ∧
    (loaded (width3 .bits)).ss ≠ .running := by decide +kernel
theorem witness_RegisterChangesOnlyByStreamCommands :
    (nextOf (exec .cons (streaming (width3 .bits) 5))).map (·.reg) = some (some 5) := by decide +kernel
theorem witness_BufferChangesOnlyByWrb : ∀ idx b, Instr.wrb 4095 1 = .wrb idx b → 4094 ≠ idx := by
  intro idx b h
  injection h with h1
  omega
theorem witness_ReflectMovesBitsAsTheContractSays : reflect 1 64 = 0x8000000000000000 ∧ reflect 0xFF 0 = 0 := by
  decide +kernel
theorem witness_ReflectLaws : reflect 0xFF 4 = 0xF ∧ reflect 3 1 = 1 := by decide +kernel
theorem witness_ReflAnswersTheReflection : responseOf (exec (.refl 64 1) State.reset) = some ⟨.ok, 0x8000000000000000⟩ ∧
    responseOf (exec (.refl 65 1) State.reset) = some ⟨.eArg, 0⟩ := by decide +kernel
theorem witness_ReflectedStepMirrorsNormalStep : (construct (crc64Xz .bits)).Wf ∧
    (0xFFFFFFFFFFFFFFFF : Word) ≤ (construct (crc64Xz .bits)).mask := ⟨wf_xz .bits, by decide +kernel⟩
theorem witness_MaskingOnceAtTheEndIsTheSame : (construct (width1 .bits)).Wf := wf_width1 .bits
theorem witness_PreloadedFormIsTheReflectedProcessor : (construct (width13 .bits)).Wf := wf_width13 .bits
theorem witness_ByteUpdateIsEightDividerSteps : (construct (width1 .bits)).Wf ∧ (1 : Word) ≤ (construct (width1 .bits)).mask :=
  ⟨wf_width1 .bits, by decide +kernel⟩
theorem witness_DividerIsPolynomialRemainder : (construct (width13 .bits)).Wf ∧
    (construct (width13 .bits)).refIn = true ∧ (construct (width1 .bits)).Wf ∧ (construct (width1 .bits)).refIn = false ∧
    (0x1FFF : Word) ≤ (construct (width13 .bits)).mask := ⟨wf_width13 .bits, rfl, wf_width1 .bits, rfl, by decide +kernel⟩
theorem witness_ReflectedModeIsNormalModeOnReversedBytes : (construct (width13 .table8)).Wf := wf_width13 .table8
theorem witness_DividerIsLinear : (construct (crc32IsoHdlc .bits)).Wf ∧
    (0xFFFFFFFF : Word) ≤ (construct (crc32IsoHdlc .bits)).mask := ⟨wf_iso .bits, by decide +kernel⟩
theorem witness_RawbAnswersTheRawByte : responseOf (exec (.rawb 0xFF) (loaded (width3 .table8))) = some ⟨.ok, 3⟩ ∧
    State.reset.engine = none := by decide +kernel
theorem witness_RdlutAnswersTheTableEntry : (construct (crc32IsoHdlc .table8)).Wf ∧
    (construct (crc32IsoHdlc .table4)).Wf ∧ (construct (crc32IsoHdlc .bits)).Wf ∧
    responseOf (exec (.rdlut 256) (loaded (crc32IsoHdlc .table8))) = some ⟨.eArg, 0⟩ ∧
    responseOf (exec (.rdlut 15) (loaded (crc32IsoHdlc .table4))) = some ⟨.ok, 0xBDBDF21C⟩ ∧
    responseOf (exec (.rdlut 16) (loaded (crc32IsoHdlc .table4))) = some ⟨.eArg, 0⟩ ∧
    responseOf (exec (.rdlut 0) (loaded (crc32IsoHdlc .bits))) = some ⟨.eArg, 0⟩ :=
  ⟨wf_iso _, wf_iso _, wf_iso _, by decide +kernel, by decide +kernel, by decide +kernel, by decide +kernel⟩
theorem witness_TableUpdatesEqualTheDivider : (construct (width1 .table8)).Wf ∧ (construct (crc64Xz .table4)).Wf ∧
    (construct (width1 .table8)).strat = .table8 ∧ (construct (crc64Xz .table4)).strat = .table4 :=
  ⟨wf_width1 _, wf_xz _, rfl, rfl⟩
theorem witness_BeginStartsAStream : (streaming (width3 .bits) 5).engine = some (construct (width3 .bits)) ∧
    State.reset.engine = none := ⟨rfl, rfl⟩
theorem witness_UpdFeedsTheChunkInOrder : (streaming (width3 .bits) 5).ss = .running ∧
    (streaming (width3 .bits) 5).engine = some (construct (width3 .bits)) ∧ (streaming (width3 .bits) 5).reg = some 5 ∧
    responseOf (exec (.upd 0 4096) (streaming (width3 .bits) 5)) = some ⟨.ok, 0⟩ ∧
    responseOf (exec (.upd 4096 1) (streaming (width3 .bits) 5)) = some ⟨.eArg, 0⟩ ∧
    responseOf (exec (.upd 5000 0) State.reset) = some ⟨.eState, 0⟩ :=
  ⟨rfl, rfl, rfl, by decide +kernel, by decide +kernel, by decide⟩
theorem witness_UpdFeedsTheChunkInOrder_parameters : 65535 + 1 ≤ large.bufBytes ∧ tiny.bufBytes < 0 + 2 ∧
    responseOf (execOn large (.upd 0 65536) (streaming (width3 .bits) 5)) = some ⟨.ok, 0⟩ := by decide +kernel
theorem witness_UpdbFeedsOneByte : (streaming (width3 .table8) 5).ss = .running ∧
    (nextOf (exec (.updb 0x31) (streaming (width3 .table8) 5))).map (·.reg) = some (some 1) ∧ State.reset.ss ≠ .running :=
  ⟨rfl, by decide +kernel, by decide⟩
theorem witness_FinalAnswersOnceAndSpendsTheStream :
    (nextOf (exec .final (streaming (width13 .bits) 0x05D9))).map (fun s => (s.ss, s.reg)) =
      some (.spent, some 0x05D9) ∧ State.reset.ss ≠ .running := by decide +kernel
theorem witness_ComputeAnswersTheChecksumOfTheChunk :
    responseOf (exec (.compute 0 4096) (loaded (width13 .bits))) = some ⟨.ok, 0x15B3⟩ ∧
    responseOf (exec (.compute 1 4096) (loaded (width13 .bits))) = some ⟨.eArg, 0⟩ ∧
    responseOf (exec (.compute 1 4096) State.reset) = some ⟨.eState, 0⟩ := by decide +kernel
theorem witness_ComputeAnswersTheChecksumOfTheChunk_parameters :
    responseOf (execOn tiny (.compute 0 1) (loaded (width13 .bits))) = some ⟨.ok, 0x15B3⟩ ∧
    responseOf (execOn tiny (.compute 2 0) (loaded (width13 .bits))) = some ⟨.eArg, 0⟩ := by decide +kernel
theorem witness_GetchkAnswersTheCheckMessageChecksum :
    responseOf (exec .getchk (loaded (crc64Xz .bits))) = some ⟨.ok, 0x995DC9BBDF1939FA⟩ ∧ State.reset.engine = none := by
  decide +kernel
theorem witness_CheckComparesAllBits_match : (loaded (width3 .bits)).engine = some (construct (width3 .bits)) ∧
    fin (construct (width3 .bits)) ((ascii "123456789").foldl (upd (construct (width3 .bits)))
      (construct (width3 .bits)).crcInit) = (construct (width3 .bits)).check ∧
    responseOf (exec .check (loaded (width3 .bits))) = some ⟨.ok, 0x4⟩ :=
  ⟨rfl, by decide +kernel, by decide +kernel⟩
theorem witness_CheckComparesAllBits_mismatch :
    (construct { width3 .bits with check := 0x8 }).mask < (construct { width3 .bits with check := 0x8 }).check := by
  decide +kernel
theorem witness_EmptyMessageChecksum : (loaded (width13 .bits)).engine = some (construct (width13 .bits)) ∧
    (construct (width13 .bits)).Wf := ⟨rfl, wf_width13 .bits⟩
theorem witness_StrategiesAgree : 1 ≤ (width3 .bits).bits.toNat ∧ (width3 .bits).bits.toNat ≤ 64 ∧
    (∀ c, (streaming (width3 .bits) 7).reg = some c → c ≤ (construct (withStrategy (width3 .bits) .table4)).mask) ∧
    responseOf (exec .final { streaming (width3 .bits) 7 with engine := some (construct (width3 .table4)) }) =
      some ⟨.ok, 0⟩ := by
  refine ⟨by decide, by decide, fun c h => ?_, by decide +kernel⟩
  have hc : (7 : Word) = c := Option.some.inj h
  exact hc ▸ (by decide +kernel)
theorem witness_ChunkBoundariesDoNotMatter :
    feedCommands (withMessage State.reset) 0 [(2, true), (0, true), (1, false)] = [.upd 2 0, .upd 0 2, .updb 0x33] ∧
    4093 + totalLength [(2, true), (0, true), (1, false)] = 4096 := by decide
theorem witness_ChunkBoundariesDoNotMatter_rewritten :
    let cmds : List Instr := [.wrb 7 0x31, .upd 1 7, .getchk, .wrb 7 0x32, .upd 1 7, .updb 0x33, .upd 1 4096]
    (∀ i ∈ cmds, keepsStream i = true) ∧ fedDuring cmds (begun (loaded (width3 .bits)) (construct (width3 .bits))) =
      [0x31, 0x32, 0x33] ∧
    ({ loaded (width3 .bits) with buf := [(0, 0x31), (1, 0x32), (2, 0x33)] }).chunk 3 0 = [0x31, 0x32, 0x33] := by
  decide +kernel
theorem witness_KnownAnswersForEveryStrategy :
    checksum (construct (withStrategy (width3 .bits) .table4)) checkMessage = (width3 .bits).check := by decide +kernel
theorem witness_ChecksumDependsOnDefinitionAndBytesOnly :
    withStrategy (construct (crc64Xz .table8)).toDefinition .bits = withStrategy (construct (crc64Xz .bits)).toDefinition .bits ∧
    (construct (crc64Xz .table8)).Wf ∧ (construct (crc64Xz .bits)).Wf ∧
    (loaded (crc64Xz .table8)).memRead 7 = (loaded (crc64Xz .bits)).memRead 7 :=
  ⟨by decide +kernel, wf_xz _, wf_xz _, rfl⟩
theorem witness_CatalogueSelfTestPasses : (8 : Nat) < 9 ∧
    (nextOf (runAll [.ldcat 8, .cons, .check] State.reset)).map (·.responses) =
      some [⟨.ok, 0xFC891918⟩, ⟨.ok, 0⟩, ⟨.ok, 0⟩] := by decide +kernel
theorem witness_ChecksumDependsOnDefinitionAndBytesOnly_fed :
    fedDuring [.updb 0x31, .rdr 0x21] (begun (loaded (crc64Xz .table8)) (construct (crc64Xz .table8))) =
      fedDuring [.wrb 0 0x31, .upd 1 0] (begun (loaded (crc64Xz .bits)) (construct (crc64Xz .bits))) := by decide +kernel
theorem witness_LdcatCopiesTheEntry : responseOf (exec (.ldcat 8) State.reset) = some ⟨.ok, 0⟩ ∧
    responseOf (exec (.ldcat 9) State.reset) = some ⟨.eArg, 0⟩ := by decide
theorem witness_LdcatCopiesTheEntry_parameters : large.catalogue[0]? = some (entry (crc32IsoHdlc .bits) nameIsoHdlc) ∧
    tiny.catLen ≤ 0 ∧ responseOf (execOn large (.ldcat 0) State.reset) = some ⟨.ok, 0⟩ ∧
    responseOf (execOn tiny (.ldcat 0) State.reset) = some ⟨.eArg, 0⟩ := by decide
theorem witness_RdcatReadsOnePartOfAnEntry : responseOf (exec (.rdcat 8 7) State.reset) = some ⟨.ok, 0⟩ ∧
    responseOf (exec (.rdcat 0 8) State.reset) = some ⟨.ok, 15⟩ ∧
    responseOf (exec (.rdcat 0 9) State.reset) = some ⟨.eArg, 0⟩ ∧
    responseOf (exec (.rdcat 0 0x7F) State.reset) = some ⟨.eArg, 0⟩ ∧
    responseOf (exec (.rdcat 3 0x80) State.reset) = some ⟨.ok, 0x43⟩ ∧
    responseOf (exec (.rdcat 9 0) State.reset) = some ⟨.eArg, 0⟩ := by decide
theorem witness_RdcatReadsOnePartOfAnEntry_parameters :
    responseOf (execOn large (.rdcat 0 0x8E) State.reset) = some ⟨.ok, 0x43⟩ ∧
    responseOf (execOn large (.rdcat 0 7) State.reset) = some ⟨.ok, 0⟩ ∧
    responseOf (execOn large (.rdcat 0 8) State.reset) = some ⟨.ok, 15⟩ ∧
    responseOf (execOn large (.rdcat 1 7) State.reset) = some ⟨.eArg, 0⟩ := by decide
theorem witness_WrbWritesOneByte : responseOf (exec (.wrb 4095 1) State.reset) = some ⟨.ok, 0⟩ ∧
    responseOf (exec (.wrb 4096 1) State.reset) = some ⟨.eArg, 0⟩ := by decide
theorem witness_WrbWritesOneByte_parameters : responseOf (execOn large (.wrb 65535 1) State.reset) = some ⟨.ok, 0⟩ ∧
    responseOf (execOn tiny (.wrb 1 1) State.reset) = some ⟨.eArg, 0⟩ := by decide
theorem witness_RdbReadsOneByte :
    responseOf (exec (.rdb 4095) { State.reset with buf := [(4095, 0x80)] }) = some ⟨.ok, 0x80⟩ ∧
    responseOf (exec (.rdb 4096) State.reset) = some ⟨.eArg, 0⟩ := by decide
theorem witness_RdbReadsOneByte_parameters :
    responseOf (execOn large (.rdb 65535) { State.reset with buf := [(65535, 0x80)] }) = some ⟨.ok, 0x80⟩ ∧
    responseOf (execOn tiny (.rdb 1) State.reset) = some ⟨.eArg, 0⟩ := by decide
theorem witness_PseudoCommandsStageAndLoad : 1 ≤ (64 : Word).toNat ∧ (64 : Word).toNat ≤ 64 ∧ (1 : Word).toNat ≤ 1 ∧
    (2 : Word).toNat ≤ 2 ∧ 4087 + (ascii "123456789").length = 4096 := by decide
theorem witness_EveryCommandAnswersOnce : (State.reset.present 0xFF0000000000000000000000).port =
    .command 0xFF0000000000000000000000 :: [] := rfl
theorem witness_StatusShowsEngineAndStream : State.Inv (streaming (crc32IsoHdlc .table4) 0x641C1F5C) ∧
    (streaming (crc32IsoHdlc .table4) 0x641C1F5C).status = 3 := ⟨inv_streaming, by decide⟩
theorem witness_EveryChecksumIsMasked : State.Inv (streaming (crc32IsoHdlc .table4) 0x641C1F5C) ∧
    (streaming (crc32IsoHdlc .table4) 0x641C1F5C).engine = some (construct (crc32IsoHdlc .table4)) ∧
    (responseOf (exec .final (streaming (crc32IsoHdlc .table4) 0x641C1F5C))).map (·.st) = some .ok :=
  ⟨inv_streaming, rfl, by decide +kernel⟩
theorem witness_StreamNeedsAnEngine : (streaming (width3 .bits) 0).engine.isSome = true ∧
    (nextOf (step ((streaming (width3 .bits) 0).present 0x130000000000000000000000))).map (·.ss) = some .spent := by
  decide +kernel
theorem witness_StepKeepsTheInvariant : State.Inv (streaming (crc32IsoHdlc .table4) 0x641C1F5C) ∧
    step (streaming (crc32IsoHdlc .table4) 0x641C1F5C) = .next (streaming (crc32IsoHdlc .table4) 0x641C1F5C) :=
  ⟨inv_streaming, rfl⟩
theorem witness_StepKeepsTheInvariant_parameters : State.reset.InvOn large ∧
    (nextOf (stepOn large (State.reset.present 0x1C00FFFF0000000000000080))).map (·.buf) = some [(65535, 0x80)] :=
  ⟨⟨by decide, fun _ h => (nomatch h), fun h => absurd rfl h, fun h => (nomatch h), fun k _ => by simp [State.reset], rfl⟩,
    by decide⟩
theorem witness_RunningRegisterIsHidden : Instr.updb 0x31 ≠ .final ∧
    responseOf (exec (.updb 0x31) { streaming (width3 .bits) 0 with reg := some 5 }) = some ⟨.ok, 0⟩ := by decide +kernel
theorem witness_ReadsHaveNoSideEffect : (responseOf (exec (.rdlut 0) (loaded (width3 .table8)))).map (·.st) = some .ok ∧
    (responseOf (exec (.rdcat 0 0) State.reset)).map (·.st) = some .ok := by decide +kernel

end Sys2Proof.Tests
end

section
/-! SUPPORT. What a command can do in a block with any parameters, said once for all 19: the change it makes to the state
before its response (spec/00_scope.md R7, spec/60_exceptions.md R217). -/

namespace Sys2Proof.Machine

/-- The change a command makes to the state before it answers `OK`. -/
inductive Change (p : Params) : Instr → State → State → Prop where
  /-- Only the response (R69, R200). -/
  | keep (i : Instr) (s : State) : Change p i s s
  /-- RST (R201). -/
  | reset (s : State) : Change p .rst s s.softReset
  /-- WRD of a value the field can hold (R153). -/
  | stage {reg : Nat} {v : Word} {s : State} {f : Field} {d : Definition} (hreg : Reg.ofIndex? reg = some (.staging f))
      (hwrite : writeField? s.staging f v = some d) : Change p (.wrd reg v) s { s with staging := d }
  /-- LDCAT of an entry (R192). -/
  | load {k : Nat} {c : CatalogueEntry} {s : State} (hentry : catalogueEntry? p k = some c) :
      Change p (.ldcat k) s { s with staging := c.definition }
  /-- CONS of a legal width (R158). -/
  | cons {s : State} (hmin : Config.bitsMin ≤ s.staging.bits.toNat) (hmax : s.staging.bits.toNat ≤ Config.bitsMax) :
      Change p .cons s { s with engine := some (construct s.staging), ss := .idle }
  /-- BEGIN with an engine (R171). -/
  | begin {s : State} {e : Engine} (hengine : s.engine = some e) :
      Change p .begin s { s with reg := some e.crcInit, ss := .running }
  /-- UPD of a chunk in the buffer (R172). -/
  | feedChunk {len off : Nat} {s : State} {e : Engine} {c : Word} (hstream : s.stream? = some (e, c)) :
      Change p (.upd len off) s { s with reg := some (updMsg e c (s.chunk len off)) }
  /-- UPDB (R173). -/
  | feedByte {b : Byte} {s : State} {e : Engine} {c : Word} (hstream : s.stream? = some (e, c)) :
      Change p (.updb b) s { s with reg := some (upd e c b) }
  /-- FINAL (R174). -/
  | finish {s : State} {e : Engine} {c : Word} (hstream : s.stream? = some (e, c)) :
      Change p .final s { s with ss := .spent }
  /-- WRB inside the buffer (R202). -/
  | write {idx : Nat} {b : Byte} {s : State} (hidx : idx < p.bufBytes) : Change p (.wrb idx b) s (s.memWrite idx b)

/-- How a command ends: it makes its change and answers `OK`, or it raises a status that a command can raise and changes
nothing else (R212 to R215, R217). -/
inductive Ends (p : Params) (i : Instr) (s : State) : Result → Prop where
  | answers {u : State} (hchange : Change p i s u) (v : Word) : Ends p i s (u.respond v)
  | fails (st : Status) (hst : st = .eState ∨ st = .eArg ∨ st = .eSelftest) : Ends p i s (s.raise st)

section
variable {p : Params} {i : Instr} {s : State}

theorem Ends.respond (v : Word) : Ends p i s (s.respond v) := .answers (.keep i s) v

theorem Ends.eState : Ends p i s (s.raise .eState) := .fails .eState (.inl rfl)

theorem Ends.eArg : Ends p i s (s.raise .eArg) := .fails .eArg (.inr (.inl rfl))

theorem Ends.eSelftest : Ends p i s (s.raise .eSelftest) := .fails .eSelftest (.inr (.inr rfl))

end

section
variable (p : Params) (s : State)

theorem execWrd_ends (reg : Nat) (v : Word) : Ends p (.wrd reg v) s (execWrd reg v s) := by
  unfold execWrd
  split
  · next f hreg =>
    split
    · next d hwrite => exact .answers (.stage hreg hwrite) 0
    · exact .eArg
  · exact .eArg

theorem execRdrOn_ends (reg : Nat) : Ends p (.rdr reg) s (execRdrOn p reg s) := by
  unfold execRdrOn
  split
  · exact .eArg
  · exact .respond _
  · split
    · exact .eState
    · exact .respond _
  · split
    · exact .eState
    · exact .respond _
  · exact .respond _

theorem execCons_ends : Ends p .cons s (execCons s) := by
  unfold execCons
  split
  · exact .eArg
  · next h =>
    obtain ⟨hmin, hmax⟩ := not_or.mp h
    exact .answers (.cons (not_lt.mp hmin) (not_lt.mp hmax)) 0

theorem execRefl_ends (n : Nat) (v : Word) : Ends p (.refl n v) s (execRefl n v s) := by
  unfold execRefl
  split
  · exact .eArg
  · exact .respond _

theorem execRawb_ends (b : Byte) : Ends p (.rawb b) s (execRawb b s) := by
  unfold execRawb
  split
  · exact .eState
  · exact .respond _

theorem execRdlut_ends (k : Nat) : Ends p (.rdlut k) s (execRdlut k s) := by
  unfold execRdlut
  split
  · exact .eState
  · split
    · exact .eArg
    · exact .respond _

theorem execBegin_ends : Ends p .begin s (execBegin s) := by
  unfold execBegin
  split
  · exact .eState
  · next e hengine => exact .answers (.begin hengine) 0

theorem execUpdOn_ends (len off : Nat) : Ends p (.upd len off) s (execUpdOn p len off s) := by
  unfold execUpdOn
  split
  · exact .eState
  · next e c hstream =>
    split
    · exact .answers (.feedChunk hstream) 0
    · exact .eArg

theorem execUpdb_ends (b : Byte) : Ends p (.updb b) s (execUpdb b s) := by
  unfold execUpdb
  split
  · exact .eState
  · next e c hstream => exact .answers (.feedByte hstream) 0

theorem execFinal_ends : Ends p .final s (execFinal s) := by
  unfold execFinal
  split
  · exact .eState
  · next e c hstream => exact .answers (.finish hstream) (fin e c)

theorem execComputeOn_ends (len off : Nat) : Ends p (.compute len off) s (execComputeOn p len off s) := by
  unfold execComputeOn
  split
  · exact .eState
  · split
    · exact .respond _
    · exact .eArg

theorem execGetchk_ends : Ends p .getchk s (execGetchk s) := by
  unfold execGetchk
  split
  · exact .eState
  · exact .respond _

theorem execCheck_ends : Ends p .check s (execCheck s) := by
  unfold execCheck
  split
  · exact .eState
  · split
    · exact .eSelftest
    · exact .respond _

theorem execLdcatOn_ends (k : Nat) : Ends p (.ldcat k) s (execLdcatOn p k s) := by
  unfold execLdcatOn
  split
  · exact .eArg
  · next c hentry => exact .answers (.load hentry) 0

theorem execRdcatOn_ends (entry sel : Nat) : Ends p (.rdcat entry sel) s (execRdcatOn p entry sel s) := by
  unfold execRdcatOn
  split
  · exact .eArg
  · split
    · exact .eArg
    · exact .respond _

theorem execWrbOn_ends (idx : Nat) (b : Byte) : Ends p (.wrb idx b) s (execWrbOn p idx b s) := by
  unfold execWrbOn
  split
  · next hidx => exact .answers (.write (of_decide_eq_true hidx)) 0
  · exact .eArg

theorem execRdbOn_ends (idx : Nat) : Ends p (.rdb idx) s (execRdbOn p idx s) := by
  unfold execRdbOn
  split
  · exact .respond _
  · exact .eArg

/-- What any command can do, in a block with any parameters. -/
theorem execOn_ends (i : Instr) : Ends p i s (execOn p i s) :=
  match i with
  | .nop => .respond 0
  | .rst => .answers (.reset s) 0
  | .wrd reg v => execWrd_ends p s reg v
  | .rdr reg => execRdrOn_ends p s reg
  | .cons => execCons_ends p s
  | .refl n v => execRefl_ends p s n v
  | .rawb b => execRawb_ends p s b
  | .rdlut k => execRdlut_ends p s k
  | .begin => execBegin_ends p s
  | .upd len off => execUpdOn_ends p s len off
  | .updb b => execUpdb_ends p s b
  | .final => execFinal_ends p s
  | .compute len off => execComputeOn_ends p s len off
  | .getchk => execGetchk_ends p s
  | .check => execCheck_ends p s
  | .ldcat k => execLdcatOn_ends p s k
  | .rdcat entry sel => execRdcatOn_ends p s entry sel
  | .wrb idx b => execWrbOn_ends p s idx b
  | .rdb idx => execRdbOn_ends p s idx

end

/-- The same for a command of this hardware. -/
theorem exec_ends (i : Instr) (s : State) : Ends hardware i s (exec i s) :=
  exec_eq_execOn i s ▸ execOn_ends hardware s i

end Sys2Proof.Machine
end

section
/-! SUPPORT. The registers CONS computes (spec/10_state.md R24, spec/43_definition_registers.md R158) and the bound
`E_MASK` on everything the divider and the tables produce (R38). The bound is stated as `toNat < 2 ^ n`, which xor keeps
(`Nat.xor_lt_two_pow`); `le_maskOf_iff` ties it to `≤ E_MASK`. -/

namespace Sys2Proof.Machine

/-- `E_MASK` has the `n` lowest bits set (R24). -/
theorem toNat_maskOf {n : Nat} (hpos : 1 ≤ n) (hle : n ≤ 64) : (maskOf n).toNat = 2 ^ n - 1 := by
  obtain ⟨k, rfl⟩ : ∃ k, n = k + 1 := ⟨n - 1, by omega⟩
  have hk : 2 ^ k ≤ 2 ^ 63 := Nat.pow_le_pow_right (by omega) (by omega)
  have hone : 1 ≤ 2 ^ k := Nat.one_le_two_pow
  have htop : (topBitOf (k + 1)).toNat = 2 ^ k := by
    simp [topBitOf, Nat.shiftLeft_eq]
    omega
  have hsub : (topBitOf (k + 1) - 1).toNat = 2 ^ k - 1 := by
    rw [BitVec.toNat_sub, htop]
    simp
    omega
  have hshift : ((topBitOf (k + 1) - 1) <<< 1).toNat = (2 ^ k - 1) <<< 1 := by
    rw [BitVec.toNat_shiftLeft, hsub, Nat.shiftLeft_eq, Nat.mod_eq_of_lt (by omega)]
  calc (maskOf (k + 1)).toNat = (2 ^ k - 1) <<< 1 ||| 1 := by rw [maskOf, BitVec.toNat_or, hshift]; rfl
    _ = (2 ^ k - 1) <<< 1 + 1 := (Nat.shiftLeft_add_eq_or_of_lt (by omega) _).symm
    _ = 2 ^ (k + 1) - 1 := by rw [Nat.shiftLeft_eq, Nat.pow_succ]; omega

/-- At most `E_MASK` means representable in the width. -/
theorem le_maskOf_iff {n : Nat} (hpos : 1 ≤ n) (hle : n ≤ 64) (x : Word) : x ≤ maskOf n ↔ x.toNat < 2 ^ n := by
  have hone : 1 ≤ 2 ^ n := Nat.one_le_two_pow
  rw [BitVec.le_def, toNat_maskOf hpos hle]
  omega

/-- A value masked by `E_MASK` fits the width. -/
theorem toNat_and_maskOf_lt {n : Nat} (hpos : 1 ≤ n) (hle : n ≤ 64) (x : Word) : (x &&& maskOf n).toNat < 2 ^ n := by
  have hone : 1 ≤ 2 ^ n := Nat.one_le_two_pow
  have hand : (x &&& maskOf n).toNat ≤ (maskOf n).toNat := by
    rw [BitVec.toNat_and]
    exact Nat.and_le_right
  rw [toNat_maskOf hpos hle] at hand
  omega

/-- Each round of the loop of R100 makes the accumulator at most one bit longer. -/
theorem toNat_reflectLoop_lt (n k : Nat) (r v : Word) (hr : r.toNat < 2 ^ k) :
    (reflectLoop n r v).toNat < 2 ^ (k + n) := by
  induction n generalizing k r v with
  | zero => exact hr
  | succ n ih =>
    have hshift : (r <<< 1).toNat < 2 ^ (k + 1) := by
      rw [BitVec.toNat_shiftLeft, Nat.shiftLeft_eq, Nat.pow_succ]
      exact Nat.lt_of_le_of_lt (Nat.mod_le _ _) (by omega)
    have hbit : (v &&& 1).toNat < 2 ^ (k + 1) :=
      calc (v &&& 1).toNat ≤ 1 := by rw [BitVec.toNat_and]; exact Nat.and_le_right
        _ < 2 ^ (k + 1) := Nat.one_lt_two_pow (Nat.succ_ne_zero k)
    have hnext : ((r <<< 1) ||| (v &&& 1)).toNat < 2 ^ (k + 1) := by
      rw [BitVec.toNat_or]
      exact Nat.or_lt_two_pow hshift hbit
    simpa only [reflectLoop, Nat.add_assoc, Nat.add_comm 1 n] using ih (k + 1) _ (v >>> 1) hnext

/-- `reflect(v, n)` has `n` bits (R100). -/
theorem toNat_reflect_lt (v : Word) (n : Nat) : (reflect v n).toNat < 2 ^ n := by
  simpa [reflect] using toNat_reflectLoop_lt n 0 0 v Nat.one_pos

theorem toNat_zero_lt (n : Nat) : (0 : Word).toNat < 2 ^ n := Nat.two_pow_pos n

theorem toNat_xor_lt {n : Nat} {x y : Word} (hx : x.toNat < 2 ^ n) (hy : y.toNat < 2 ^ n) :
    (x ^^^ y).toNat < 2 ^ n := by
  rw [BitVec.toNat_xor]
  exact Nat.xor_lt_two_pow hx hy

theorem toNat_ushiftRight_lt {n : Nat} {x : Word} (hx : x.toNat < 2 ^ n) (k : Nat) : (x >>> k).toNat < 2 ^ n := by
  rw [BitVec.toNat_ushiftRight]
  exact Nat.lt_of_le_of_lt (Nat.shiftRight_le _ _) hx

/-- What the divider needs of an engine for its register to stay inside the width: a legal width, the mask of that width,
and polynomials that fit it. The latched engine has this before its table is built. -/
structure Engine.Masked (e : Engine) : Prop where
  width_pos : 1 ≤ e.width
  width_le : e.width ≤ 64
  mask_eq : e.mask = maskOf e.width
  poly_lt : e.poly.toNat < 2 ^ e.width
  rPoly_lt : e.rPoly.toNat < 2 ^ e.width

namespace Engine.Masked

variable {e : Engine} (h : e.Masked)
include h

theorem le_mask_iff (x : Word) : x ≤ e.mask ↔ x.toNat < 2 ^ e.width := by
  rw [h.mask_eq, le_maskOf_iff h.width_pos h.width_le]

theorem toNat_and_mask_lt (x : Word) : (x &&& e.mask).toNat < 2 ^ e.width := by
  rw [h.mask_eq]
  exact toNat_and_maskOf_lt h.width_pos h.width_le x

theorem stepN_lt (c : Word) (d : Bool) : (stepN e c d).toNat < 2 ^ e.width := by
  unfold stepN
  split
  · exact toNat_xor_lt (h.toNat_and_mask_lt _) h.poly_lt
  · exact h.toNat_and_mask_lt _

theorem stepR_lt {c : Word} (hc : c.toNat < 2 ^ e.width) (d : Bool) : (stepR e c d).toNat < 2 ^ e.width := by
  unfold stepR
  split
  · exact toNat_xor_lt (toNat_ushiftRight_lt hc 1) h.rPoly_lt
  · exact toNat_ushiftRight_lt hc 1

theorem feedN_lt {w : Nat} {c : Word} (hc : c.toNat < 2 ^ e.width) (x : BitVec w) :
    (feedN e c x).toNat < 2 ^ e.width :=
  List.foldlRecOn (motive := fun r : Word => r.toNat < 2 ^ e.width) (msbFirst x) (stepN e) hc
    fun r _ d _ => h.stepN_lt r d

theorem feedR_lt {w : Nat} {c : Word} (hc : c.toNat < 2 ^ e.width) (x : BitVec w) :
    (feedR e c x).toNat < 2 ^ e.width :=
  List.foldlRecOn (motive := fun r : Word => r.toNat < 2 ^ e.width) (lsbFirst x) (stepR e) hc
    fun _ hr d _ => h.stepR_lt hr d

theorem raw_lt (b : Byte) : (raw e b).toNat < 2 ^ e.width := by
  unfold raw
  split
  · exact h.feedR_lt (toNat_zero_lt _) b
  · exact h.feedN_lt (toNat_zero_lt _) b

theorem nib_lt (k : Nibble) : (nib e k).toNat < 2 ^ e.width := by
  unfold nib
  split
  · exact h.feedR_lt (toNat_zero_lt _) k
  · exact h.feedN_lt (toNat_zero_lt _) k

/-- Every table entry fits the width (R38). -/
theorem buildTable_lt {x : Word} (hx : x ∈ buildTable e) : x.toNat < 2 ^ e.width := by
  unfold buildTable at hx
  split at hx
  · exact absurd hx (List.not_mem_nil)
  · obtain ⟨k, -, rfl⟩ := List.mem_map.mp hx
    exact h.nib_lt _
  · obtain ⟨k, -, rfl⟩ := List.mem_map.mp hx
    exact h.raw_lt _

/-- The merge of a byte keeps the width when its processor or table does (R116, R134). -/
theorem mergeByte_lt {T : Byte → Word} (hT : ∀ b, (T b).toNat < 2 ^ e.width) {c : Word} (hc : c.toNat < 2 ^ e.width)
    (b : Byte) : (mergeByte e T c b).toNat < 2 ^ e.width := by
  unfold mergeByte
  split
  · exact toNat_xor_lt (toNat_ushiftRight_lt hc 8) (hT _)
  · split
    · exact toNat_xor_lt (h.toNat_and_mask_lt _) (hT _)
    · exact hT _

theorem n4_lt (hT : ∀ k : Nibble, (lutEntry e k.toNat).toNat < 2 ^ e.width) {c : Word} (hc : c.toNat < 2 ^ e.width)
    (n : Nibble) : (n4 e c n).toNat < 2 ^ e.width := by
  unfold n4
  split
  · exact toNat_xor_lt (toNat_ushiftRight_lt hc 4) (hT _)
  · split
    · exact toNat_xor_lt (h.toNat_and_mask_lt _) (hT _)
    · exact hT _

theorem updT4_lt (hT : ∀ k : Nibble, (lutEntry e k.toNat).toNat < 2 ^ e.width) {c : Word}
    (hc : c.toNat < 2 ^ e.width) (b : Byte) : (updT4 e c b).toNat < 2 ^ e.width := by
  unfold updT4
  split
  · exact h.n4_lt hT (h.n4_lt hT hc _) _
  · exact h.n4_lt hT (h.n4_lt hT hc _) _

end Engine.Masked

/-- The engine CONS latches is masked (R24, R158). -/
theorem latch_masked {d : Definition} (hpos : 1 ≤ d.bits.toNat) (hle : d.bits.toNat ≤ 64) : (latch d).Masked where
  width_pos := hpos
  width_le := hle
  mask_eq := rfl
  poly_lt := toNat_and_maskOf_lt hpos hle d.poly
  rPoly_lt := toNat_reflect_lt (d.poly &&& maskOf d.bits.toNat) d.bits.toNat

theorem latch_crcInit_lt {d : Definition} (hpos : 1 ≤ d.bits.toNat) (hle : d.bits.toNat ≤ 64) :
    (latch d).crcInit.toNat < 2 ^ d.bits.toNat := by
  unfold latch
  dsimp only
  split
  · exact toNat_reflect_lt _ _
  · exact toNat_and_maskOf_lt hpos hle d.init

/-- Latching masks the staged values, so latching its own result again changes nothing. -/
theorem latch_latch (d : Definition) : latch (latch d).toDefinition = latch d := by
  simp only [latch, BitVec.and_assoc, BitVec.and_self]

/-- CONS builds well-formed engines (R23, R24, R26). -/
theorem construct_wf {d : Definition} (hpos : 1 ≤ d.bits.toNat) (hle : d.bits.toNat ≤ 64) : (construct d).Wf where
  width_pos := hpos
  width_le := hle
  constructed := by
    change construct (latch d).toDefinition = construct d
    simp only [construct, latch_latch]

namespace Engine.Wf

variable {e : Engine} (h : e.Wf)
include h

/-- A well-formed engine is the latched one with its table. -/
theorem masked : e.Masked := by
  rw [← h.constructed]
  have hlatch : (latch e.toDefinition).Masked := latch_masked h.width_pos h.width_le
  exact ⟨hlatch.width_pos, hlatch.width_le, hlatch.mask_eq, hlatch.poly_lt, hlatch.rPoly_lt⟩

theorem lut_eq : e.lut = buildTable (latch e.toDefinition) := by
  conv_lhs => rw [← h.constructed]
  rfl

theorem crcInit_le_mask : e.crcInit ≤ e.mask := by
  rw [h.masked.le_mask_iff, ← h.constructed]
  exact latch_crcInit_lt h.width_pos h.width_le

/-- Every entry of the table fits the width (R38). -/
theorem lut_lt {x : Word} (hx : x ∈ e.lut) : x.toNat < 2 ^ e.width :=
  (latch_masked h.width_pos h.width_le).buildTable_lt (h.lut_eq ▸ hx)

/-- A read below `LUT_LEN` is a table entry, so it fits the width (R63). -/
theorem lutEntry_lt {k : Nat} (hk : k < e.lut.length) : (lutEntry e k).toNat < 2 ^ e.width := by
  rw [lutEntry, List.getElem?_eq_getElem hk]
  exact h.lut_lt (List.getElem_mem hk)

theorem lut_length_table4 (hs : e.strat = .table4) : e.lut.length = 16 := by
  have hstrat : (latch e.toDefinition).strat = .table4 := hs
  simp [h.lut_eq, buildTable, hstrat, Config.lut4Len]

theorem lut_length_table8 (hs : e.strat = .table8) : e.lut.length = 256 := by
  have hstrat : (latch e.toDefinition).strat = .table8 := hs
  simp [h.lut_eq, buildTable, hstrat, Config.lut8Len]

/-- Processing a byte keeps the running register at or below `E_MASK`, by every strategy (R38). -/
theorem upd_le_mask {c : Word} (hc : c ≤ e.mask) (b : Byte) : upd e c b ≤ e.mask := by
  rw [h.masked.le_mask_iff] at hc ⊢
  cases hs : e.strat with
  | bits =>
    simp only [upd, hs]
    exact h.masked.mergeByte_lt h.masked.raw_lt hc b
  | table4 =>
    simp only [upd, hs]
    exact h.masked.updT4_lt (fun k => h.lutEntry_lt (h.lut_length_table4 hs ▸ k.isLt)) hc b
  | table8 =>
    simp only [upd, hs]
    exact h.masked.mergeByte_lt (fun k => h.lutEntry_lt (h.lut_length_table8 hs ▸ k.isLt)) hc b

theorem updMsg_le_mask {c : Word} (hc : c ≤ e.mask) (m : List Byte) : updMsg e c m ≤ e.mask :=
  List.foldlRecOn (motive := (· ≤ e.mask)) m (upd e) hc fun _ hr b _ => h.upd_le_mask hr b

end Engine.Wf

end Sys2Proof.Machine
end

section
/-! SUPPORT. The invariant is kept by every change a command makes, by every failure, and by both resets. -/

namespace Sys2Proof.Machine

variable {p : Params} {s : State}

/-- A legal write to a staging register leaves `D_BITS` in its range (R22, R153). -/
theorem writeField?_bits_le {d d' : Definition} {f : Field} {v : Word} (hd : d.bits.toNat ≤ 64)
    (hwrite : writeField? d f v = some d') : d'.bits.toNat ≤ 64 := by
  cases f with
  | bits =>
    simp only [writeField?, Option.ite_none_right_eq_some, Option.some.injEq] at hwrite
    obtain ⟨⟨-, hmax⟩, rfl⟩ := hwrite
    rw [BitVec.toNat_setWidth]
    exact Nat.le_trans (Nat.mod_le _ _) hmax
  | poly | init | xorOut | check => cases hwrite; exact hd
  | refIn | refOut =>
    simp only [writeField?, Option.ite_none_right_eq_some, Option.some.injEq] at hwrite
    obtain ⟨-, rfl⟩ := hwrite
    exact hd
  | strat =>
    simp only [writeField?] at hwrite
    split at hwrite
    · cases hwrite; exact hd
    · cases hwrite

/-- The bits of `ERR` that no status of the block sets (R29, R215). -/
theorem getLsbD_errBit_reserved {st : Status} (hst : st ≠ .eIo) {k : Nat} (hk : k = 0 ∨ 5 ≤ k) :
    (errBit st).getLsbD k = false := by
  obtain rfl | hge := hk
  · cases st <;> rfl
  · have hlt : (errBit st).toNat < 2 ^ 5 := by
      cases st with
      | eIo => exact absurd rfl hst
      | ok | eIllegal | eState | eArg | eSelftest => decide
    exact Nat.testBit_lt_two_pow (Nat.lt_of_lt_of_le hlt (Nat.pow_le_pow_right (by omega) hge))

namespace State.InvOn

/-- The invariant does not speak of the responses. -/
theorem answer (h : s.InvOn p) (st : Status) (r : Word) : (s.answer st r).InvOn p :=
  ⟨h.staging_bits, h.engine_wf, h.stream_has, h.reg_masked, h.err_reserved, h.buf_wf⟩

/-- The invariant does not speak of the port. -/
theorem popPort (h : s.InvOn p) : s.popPort.InvOn p :=
  ⟨h.staging_bits, h.engine_wf, h.stream_has, h.reg_masked, h.err_reserved, h.buf_wf⟩

/-- A failure sets a bit of `ERR` that may be set, and changes nothing else (R217). -/
theorem raise (h : s.InvOn p) {st : Status} (hst : st ≠ .eIo) {t : State} (ht : s.raise st = .next t) : t.InvOn p := by
  rw [raise_eq_next ht]
  refine { h with err_reserved := fun k hk => ?_ }
  rw [BitVec.getLsbD_or, h.err_reserved k hk, getLsbD_errBit_reserved hst hk]
  rfl

/-- RST keeps the buffer and puts everything else at its reset value (R201). -/
theorem softReset (h : s.InvOn p) : s.softReset.InvOn p where
  staging_bits := Nat.zero_le 64
  engine_wf := nofun
  stream_has := fun hss => absurd rfl hss
  reg_masked := nofun
  err_reserved := fun _ _ => BitVec.getLsbD_zero
  buf_wf := h.buf_wf

/-- The hardware reset input empties the list of written bytes as well (R241). -/
theorem hardReset (h : s.InvOn p) : s.hardReset.InvOn p :=
  { h.softReset with buf_wf := rfl }

theorem stage (h : s.InvOn p) {d : Definition} (hd : d.bits.toNat ≤ 64) : State.InvOn p { s with staging := d } :=
  { h with staging_bits := hd }

/-- CONS builds a well-formed engine and stops the stream (R158). -/
theorem cons (h : s.InvOn p) (hmin : 1 ≤ s.staging.bits.toNat) :
    State.InvOn p { s with engine := some (construct s.staging), ss := .idle } :=
  { h with
    engine_wf := fun _ he => Option.some.inj he ▸ construct_wf hmin h.staging_bits
    stream_has := fun hss => absurd rfl hss
    reg_masked := nofun }

/-- The running register may take any value the width admits (R27, R38). -/
theorem run (h : s.InvOn p) {e : Engine} (he : s.engine = some e) {c : Word} (hc : c ≤ e.mask) :
    State.InvOn p { s with reg := some c, ss := .running } :=
  { h with
    stream_has := fun _ => ⟨he ▸ rfl, rfl⟩
    reg_masked := by
      rintro - _ _ he' ⟨⟩
      obtain rfl := Option.some.inj (he.symm.trans he')
      exact hc }

/-- FINAL ends a stream, whose engine and register stay (R174). -/
theorem finish (h : s.InvOn p) (hss : s.ss = .running) : State.InvOn p { s with ss := .spent } :=
  { h with
    stream_has := fun _ => h.stream_has (by rw [hss]; exact nofun)
    reg_masked := nofun }

theorem memWrite (h : s.InvOn p) {a : Nat} (ha : a < p.bufBytes) (b : Byte) : (s.memWrite a b).InvOn p :=
  { h with buf_wf := Memory.wf_write h.buf_wf ha b }

/-- Feeding a running stream keeps the invariant (R38, R172, R173). -/
theorem feed (h : s.InvOn p) {e : Engine} {c : Word} (hstream : s.stream? = some (e, c)) (m : List Byte) :
    State.InvOn p { s with reg := some (updMsg e c m) } := by
  obtain ⟨hss, he, hc⟩ := stream?_eq_some.mp hstream
  have hfed := h.run he ((h.engine_wf e he).updMsg_le_mask (h.reg_masked hss e c he hc) m)
  rwa [← hss] at hfed

/-- Every change a command makes keeps the invariant. -/
theorem change (h : s.InvOn p) {i : Instr} {u : State} (hchange : Change p i s u) : u.InvOn p := by
  cases hchange with
  | keep => exact h
  | reset => exact h.softReset
  | stage _ hwrite => exact h.stage (writeField?_bits_le h.staging_bits hwrite)
  | @load _ c _ => exact h.stage c.bits_legal.2
  | cons hmin _ => exact h.cons hmin
  | begin he => exact h.run he (h.engine_wf _ he).crcInit_le_mask
  | feedChunk hstream => exact h.feed hstream _
  | @feedByte b _ _ _ hstream => exact h.feed hstream [b]
  | finish hstream => exact h.finish (stream?_eq_some.mp hstream).1
  | write hidx => exact h.memWrite hidx _

/-- Every command keeps the invariant, whether it answers or fails. -/
theorem execOn (h : s.InvOn p) {i : Instr} {t : State} (ht : execOn p i s = .next t) : t.InvOn p := by
  have hends := execOn_ends p s i
  rw [ht] at hends
  generalize hr : (Host.Outcome.next t : Result) = r at hends
  cases hends with
  | answers hchange v =>
    rw [respond_eq_next hr.symm]
    exact (h.change hchange).answer .ok v
  | fails st hst => exact h.raise (by rintro rfl; simp at hst) hr.symm

/-- Every step keeps the invariant, whatever it takes from the port. -/
theorem stepOn (h : s.InvOn p) {t : State} (ht : stepOn p s = .next t) : t.InvOn p := by
  obtain ⟨-, heq⟩ | ⟨-, heq⟩ | ⟨i, -, heq⟩ | ⟨why, -, heq⟩ := stepWith_cases (Machine.execOn p) s
  · cases heq.symm.trans ht
    exact h
  · cases heq.symm.trans ht
    exact h.popPort.hardReset
  · exact h.popPort.execOn (heq.symm.trans ht)
  · exact h.popPort.raise (st := .eIllegal) nofun (heq.symm.trans ht)

end State.InvOn

/-- Settles O58: a step is idle, a reset, an illegal word or one command, and each keeps the invariant of a block with any
parameters; this hardware is the block with the parameters `hardware`. -/
theorem stepKeepsTheInvariant : Obligations.StepKeepsTheInvariant := by
  refine ⟨fun s t h ht => ?_, fun p s t h ht => h.stepOn ht⟩
  rw [step_eq_stepOn] at ht
  exact h.stepOn ht

end Sys2Proof.Machine
end

section
/-! SUPPORT. What a step takes from the port, and which commands depend on the parameters (spec/30_encoding.md R82,
spec/00_scope.md R4). -/

namespace Sys2Proof.Machine

/-- A word that decodes is taken as its command (R82). -/
theorem takes_of_decode {s : State} {w : CommandWord} {rest : List PortInput} {i : Instr}
    (hport : s.port = .command w :: rest) (hdecode : decode w = .ok i) : s.takes = .run i := by
  simp only [State.takes, hport, hdecode]

theorem popPort_of_port {s : State} {x : PortInput} {rest : List PortInput} (hport : s.port = x :: rest) :
    s.popPort = { s with port := rest } := by
  simp only [State.popPort, hport, List.tail_cons]

/-- A step with a decodable word presented is that word's command, whatever the commands do (R9). -/
theorem stepWith_of_decode (run : Instr → State → Result) {s : State} {w : CommandWord} {rest : List PortInput}
    {i : Instr} (hport : s.port = .command w :: rest) (hdecode : decode w = .ok i) :
    stepWith run s = run i { s with port := rest } := by
  simp only [stepWith, takes_of_decode hport hdecode, popPort_of_port hport]

/-- With nothing presented a step changes nothing (log 1). -/
theorem step_of_port_nil {s : State} (hport : s.port = []) : step s = .next s := by
  simp only [step, stepWith, State.takes, hport]

theorem decodeTableWord_eq_some {nbits n : Nat} {i : Instr} (h : decodeTableWord nbits n = some i) :
    decode (tableWord nbits n) = .ok i := by
  unfold decodeTableWord at h
  split at h
  · next j hdecode => rw [hdecode, Option.some.inj h]
  · cases h

/-- A register is named by its own index only (R35). -/
theorem index_of_ofIndex? {n : Nat} {r : Reg} (h : Reg.ofIndex? n = some r) : r.index = n := by
  unfold Reg.ofIndex? at h
  split at h <;> cases h <;> rfl

/-- RDR shows the parameters at `CATLEN` and `BUFSZ` only (R31). -/
theorem execRdrOn_eq_execRdr {reg : Nat} (hcat : reg ≠ 0x22) (hbuf : reg ≠ 0x23) (p : Params) (s : State) :
    execRdrOn p reg s = execRdr reg s := by
  unfold execRdr execRdrOn
  split
  · rfl
  · rfl
  · rfl
  · rfl
  · next j hreg =>
    cases j with
    | status | err => rfl
    | catLen => exact absurd (index_of_ofIndex? hreg).symm hcat
    | bufSz => exact absurd (index_of_ofIndex? hreg).symm hbuf

/-- Settles O6: `step` and `stepOn` are one `stepWith`, and the parameters are used by six commands and by RDR at two registers
only. -/
theorem stepRunsTheDecodedCommand : Obligations.StepRunsTheDecodedCommand := by
  refine ⟨fun s w rest i hport hdecode => stepWith_of_decode exec hport hdecode,
    fun s n i htable => ?_, fun s hport => step_of_port_nil hport, exec_eq_execOn, step_eq_stepOn,
    fun p s w rest i hport hdecode => stepWith_of_decode (execOn p) hport hdecode, ?_⟩
  · exact stepWith_of_decode exec (s := s.withFetchWord 96 n) rfl (decodeTableWord_eq_some htable)
  · intro p i s hcat hbuf hupd hcompute hldcat hrdcat hwrb hrdb
    cases i with
    | rdr reg => exact execRdrOn_eq_execRdr (fun h => hcat (h ▸ rfl)) (fun h => hbuf (h ▸ rfl)) p s
    | upd len off => exact absurd rfl (hupd len off)
    | compute len off => exact absurd rfl (hcompute len off)
    | ldcat k => exact absurd rfl (hldcat k)
    | rdcat entry sel => exact absurd rfl (hrdcat entry sel)
    | wrb idx b => exact absurd rfl (hwrb idx b)
    | rdb idx => exact absurd rfl (hrdb idx)
    | nop | rst | wrd | cons | refl | rawb | rdlut | begin | updb | final | getchk | check => rfl

end Sys2Proof.Machine
end

section
/-! SUPPORT. How a command or a step ends, read off the state it leaves: one change and a response `OK`, or one failure
(spec/60_exceptions.md R217). The frame of a command follows from the frame of its change (`exec_keeps`). -/

namespace Sys2Proof.Machine

section failed
variable (s : State) (st : Status)
@[simp] theorem failed_staging : (failed s st).staging = s.staging := rfl
@[simp] theorem failed_engine : (failed s st).engine = s.engine := rfl
@[simp] theorem failed_ss : (failed s st).ss = s.ss := rfl
@[simp] theorem failed_reg : (failed s st).reg = s.reg := rfl
@[simp] theorem failed_err : (failed s st).err = s.err ||| (1 : Word) <<< st.code := rfl
@[simp] theorem failed_responses : (failed s st).responses = ⟨st, 0⟩ :: s.responses := rfl
@[simp] theorem failed_memRead (a : Nat) : (failed s st).memRead a = s.memRead a := rfl
end failed

variable {p : Params} {i : Instr} {s t u : State} {q : Response}

/-- Raising a status is failing with it (R217). -/
theorem raise_eq_failed (s : State) {st : Status} (hst : st ≠ .ok) : s.raise st = .next (failed s st) := by
  simp only [State.raise, State.answer, stickyError, errBit_eq_shift hst, failed]

/-- What a command that ends in `t` did. -/
theorem execOn_eq_next (ht : execOn p i s = .next t) :
    (∃ u v, Change p i s u ∧ t = u.answer .ok v) ∨
    ∃ st, (st = .eState ∨ st = .eArg ∨ st = .eSelftest) ∧ t = failed s st := by
  have hends := execOn_ends p s i
  rw [ht] at hends
  generalize hr : (Host.Outcome.next t : Result) = r at hends
  cases hends with
  | answers hchange v => exact .inl ⟨_, v, hchange, respond_eq_next hr.symm⟩
  | fails st hst =>
    rw [raise_eq_failed s (by rintro rfl; simp at hst)] at hr
    cases hr
    exact .inr ⟨st, hst, rfl⟩

/-- A change gives no response: that follows it (R81). -/
theorem Change.responses_eq (h : Change p i s u) : u.responses = s.responses := by
  cases h <;> rfl

/-- What a command did, told from the response it gave. -/
theorem execOn_cases (ht : execOn p i s = .next t) (hq : t.responses = q :: s.responses) :
    (q.st = .ok ∧ ∃ u, Change p i s u ∧ t = u.answer .ok q.r) ∨
    ((q.st = .eState ∨ q.st = .eArg ∨ q.st = .eSelftest) ∧ t = failed s q.st) := by
  obtain ⟨u, v, hchange, rfl⟩ | ⟨st, hst, rfl⟩ := execOn_eq_next ht
  · rw [answer_responses, hchange.responses_eq] at hq
    obtain rfl := (List.cons.inj hq).1
    exact .inl ⟨rfl, u, hchange, rfl⟩
  · obtain rfl := (List.cons.inj hq).1
    exact .inr ⟨hst, rfl⟩

/-- A part of the state that responses and failures leave alone is kept by a command whose change keeps it. -/
theorem exec_keeps {α : Type} (f : State → α) (hanswer : ∀ u st r, f (State.answer u st r) = f u)
    (hfailed : ∀ st, f (failed s st) = f s) (hchange : ∀ u, Change hardware i s u → f u = f s)
    (ht : exec i s = .next t) : f t = f s := by
  rw [exec_eq_execOn] at ht
  obtain ⟨u, v, hu, rfl⟩ | ⟨st, -, rfl⟩ := execOn_eq_next ht
  · rw [hanswer, hchange u hu]
  · exact hfailed st

namespace Change

/-- R255: only WRD, LDCAT and RST write the staging registers. -/
theorem staging_eq (h : Change p i s u) (hwrd : ∀ reg v, i ≠ .wrd reg v) (hldcat : ∀ k, i ≠ .ldcat k)
    (hrst : i ≠ .rst) : u.staging = s.staging := by
  cases h with
  | reset => exact absurd rfl hrst
  | stage => exact absurd rfl (hwrd _ _)
  | load => exact absurd rfl (hldcat _)
  | keep | cons | begin | feedChunk | feedByte | finish | write => rfl

/-- R27, R158, R174: only BEGIN, UPD, UPDB and RST write the running register. -/
theorem reg_eq (h : Change p i s u) (hbegin : i ≠ .begin) (hupd : ∀ len off, i ≠ .upd len off)
    (hupdb : ∀ b, i ≠ .updb b) (hrst : i ≠ .rst) : u.reg = s.reg := by
  cases h with
  | reset => exact absurd rfl hrst
  | begin => exact absurd rfl hbegin
  | feedChunk => exact absurd rfl (hupd _ _)
  | feedByte => exact absurd rfl (hupdb _)
  | keep | stage | load | cons | finish | write => rfl

/-- R28: only BEGIN, FINAL, CONS and RST move the stream state. -/
theorem ss_eq (h : Change p i s u) (hbegin : i ≠ .begin) (hfinal : i ≠ .final) (hcons : i ≠ .cons)
    (hrst : i ≠ .rst) : u.ss = s.ss := by
  cases h with
  | reset => exact absurd rfl hrst
  | cons => exact absurd rfl hcons
  | begin => exact absurd rfl hbegin
  | finish => exact absurd rfl hfinal
  | keep | stage | load | feedChunk | feedByte | write => rfl

/-- R29: only RST writes the error register. -/
theorem err_eq (h : Change p i s u) (hrst : i ≠ .rst) : u.err = s.err := by
  cases h with
  | reset => exact absurd rfl hrst
  | keep | stage | load | cons | begin | feedChunk | feedByte | finish | write => rfl

/-- R32, R202: only WRB writes the buffer, and it writes one byte. -/
theorem memRead_eq (h : Change p i s u) {a : Nat} (ha : ∀ idx b, i = .wrb idx b → a ≠ idx) :
    u.memRead a = s.memRead a := by
  cases h with
  | write => rw [memRead_memWrite, if_neg (ha _ _ rfl)]
  | keep | reset | stage | load | cons | begin | feedChunk | feedByte | finish => rfl

end Change

/-- A step that finds the hardware reset input (R240). -/
theorem step_of_hardReset {rest : List PortInput} (hport : s.port = .hardReset :: rest) :
    step s = .next s.popPort.hardReset := by
  simp only [step, stepWith, State.takes, hport]

/-- A step that finds a word which does not decode (R85, R212). -/
theorem step_of_decode_error {w : CommandWord} {rest : List PortInput} {why : IllegalWord}
    (hport : s.port = .command w :: rest) (hdecode : decode w = .error why) :
    step s = .next (failed { s with port := rest } .eIllegal) := by
  have htakes : s.takes = .illegal why := by simp only [State.takes, hport, hdecode]
  simp only [step, stepWith, htakes, popPort_of_port hport, State.rejectIllegal]
  exact raise_eq_failed _ nofun

/-- What a step did with a command word, told from the response it gave. -/
theorem step_command_cases {w : CommandWord} {rest : List PortInput} (hport : s.port = .command w :: rest)
    (ht : step s = .next t) (hq : t.responses = q :: s.responses) :
    (q.st = .ok ∧ ∃ i u, decode w = .ok i ∧ Change hardware i { s with port := rest } u ∧ t = u.answer .ok q.r) ∨
    (q.st ≠ .ok ∧ q.st ≠ .eIo ∧ t = failed { s with port := rest } q.st) := by
  cases hdecode : decode w with
  | error why =>
    rw [step_of_decode_error hport hdecode] at ht
    cases ht
    obtain rfl := (List.cons.inj hq).1
    exact .inr ⟨nofun, nofun, rfl⟩
  | ok i =>
    rw [step, stepWith_of_decode exec hport hdecode, exec_eq_execOn] at ht
    obtain ⟨hok, u, hchange, rfl⟩ | ⟨hst, rfl⟩ := execOn_cases ht hq
    · exact .inl ⟨hok, i, u, rfl, hchange, rfl⟩
    · refine .inr ⟨?_, ?_, rfl⟩ <;> rintro heq <;> simp [heq] at hst

end Sys2Proof.Machine
end

section
/-! SUPPORT. The meanings of the commands that need an engine or a running stream, as equations: with it and without it
(spec/60_exceptions.md R213). -/

namespace Sys2Proof.Machine

variable {p : Params} {s : State} {e : Engine} {c : Word}

theorem execBegin_of_none (he : s.engine = none) : execBegin s = .next (failed s .eState) := by
  simp only [execBegin, he]
  exact raise_eq_failed s nofun

theorem execBegin_of_some (he : s.engine = some e) : execBegin s = .next (begun s e) := by
  simp only [execBegin, he, State.respond, State.answer, begun, answered]

theorem execRawb_of_some (he : s.engine = some e) (b : Byte) : execRawb b s = s.respond (raw e b) := by
  simp only [execRawb, he]

theorem execComputeOn_of_some (he : s.engine = some e) (len off : Nat) : execComputeOn p len off s =
    if chunkInBuffer p len off then s.respond (checksum e (s.chunk len off)) else s.raise .eArg := by
  simp only [execComputeOn, he]

theorem execGetchk_of_some (he : s.engine = some e) : execGetchk s = s.respond (checksum e checkMessage) := by
  simp only [execGetchk, he]

theorem execCheck_of_some (he : s.engine = some e) : execCheck s =
    if checksum e checkMessage ≠ e.check then s.raise .eSelftest else s.respond (checksum e checkMessage) := by
  simp only [execCheck, he]

theorem execRdlut_of_entry (he : s.engine = some e) {k : Nat} {x : Word} (hx : e.lut[k]? = some x) :
    execRdlut k s = s.respond x := by
  simp only [execRdlut, he, hx]

theorem execRdlut_of_no_entry (he : s.engine = some e) {k : Nat} (hx : e.lut[k]? = none) :
    execRdlut k s = s.raise .eArg := by
  simp only [execRdlut, he, hx]

theorem execUpdOn_of_none (hstream : s.stream? = none) (len off : Nat) :
    execUpdOn p len off s = .next (failed s .eState) := by
  simp only [execUpdOn, hstream]
  exact raise_eq_failed s nofun

theorem execUpdb_of_none (hstream : s.stream? = none) (b : Byte) : execUpdb b s = .next (failed s .eState) := by
  simp only [execUpdb, hstream]
  exact raise_eq_failed s nofun

theorem execFinal_of_none (hstream : s.stream? = none) : execFinal s = .next (failed s .eState) := by
  simp only [execFinal, hstream]
  exact raise_eq_failed s nofun

theorem execFinal_of_some (hstream : s.stream? = some (e, c)) :
    execFinal s = .next (answered { s with ss := .spent } (fin e c)) := by
  simp only [execFinal, hstream]
  rfl

end Sys2Proof.Machine
end

section
/-! SUPPORT. The frames of the commands (spec/10_state.md R21, R27, R28, R32): who writes the staging registers, the running
register, the buffer and the stream state. -/

namespace Sys2Proof.Machine

variable {s t : State} {r : Word}

/-- Settles O19: the change of no other command writes the staging registers. -/
theorem stagingChangesOnlyByWrdLdcatRst : Obligations.StagingChangesOnlyByWrdLdcatRst :=
  fun _ _ _ ht hwrd hldcat hrst => exec_keeps State.staging answer_staging (failed_staging _)
    (fun _ hchange => hchange.staging_eq hwrd hldcat hrst) ht

/-- Settles O21: the change of no other command writes the running register. -/
theorem registerChangesOnlyByStreamCommands : Obligations.RegisterChangesOnlyByStreamCommands :=
  fun _ _ _ ht hbegin hupd hupdb hrst => exec_keeps State.reg answer_reg (failed_reg _)
    (fun _ hchange => hchange.reg_eq hbegin hupd hupdb hrst) ht

/-- Settles O22: WRB writes the byte at its index, and no other command writes the buffer. -/
theorem bufferChangesOnlyByWrb : Obligations.BufferChangesOnlyByWrb :=
  fun _ _ _ ht a ha => exec_keeps (State.memRead · a) (answer_memRead · · · a) (failed_memRead _ · a)
    (fun _ hchange => hchange.memRead_eq ha) ht

/-- A BEGIN that answers `OK` had an engine (R171). -/
theorem begin_of_ok (ht : exec .begin s = .next t) (hok : t.responses = ⟨.ok, r⟩ :: s.responses) :
    ∃ e, s.engine = some e ∧ t = begun s e := by
  change execBegin s = .next t at ht
  cases he : s.engine with
  | none =>
    cases (execBegin_of_none he).symm.trans ht
    cases (List.cons.inj hok).1
  | some e =>
    cases (execBegin_of_some he).symm.trans ht
    exact ⟨e, rfl, rfl⟩

/-- A FINAL that answers `OK` had a running stream (R174). -/
theorem final_of_ok (ht : exec .final s = .next t) (hok : t.responses = ⟨.ok, r⟩ :: s.responses) :
    ∃ e c, s.stream? = some (e, c) ∧ t = answered { s with ss := .spent } (fin e c) := by
  change execFinal s = .next t at ht
  cases hstream : s.stream? with
  | none =>
    cases (execFinal_of_none hstream).symm.trans ht
    cases (List.cons.inj hok).1
  | some ec =>
    obtain ⟨e, c⟩ := ec
    cases (execFinal_of_some hstream).symm.trans ht
    exact ⟨e, c, rfl, rfl⟩

/-- A CONS that answers `OK` has built the engine of the staged definition and stopped the stream (R158). -/
theorem cons_of_ok (ht : exec .cons s = .next t) (hok : t.responses = ⟨.ok, r⟩ :: s.responses) :
    t = answered { s with engine := some (construct s.staging), ss := .idle } 0 := by
  change execCons s = .next t at ht
  unfold execCons at ht
  split at ht
  · cases (raise_eq_failed s (st := .eArg) nofun).symm.trans ht
    cases (List.cons.inj hok).1
  · exact respond_eq_next ht

/-- Outside RUNNING there is no stream to feed or to finish (R28, R213). -/
theorem exec_of_not_running {i : Instr} (hi : (∃ len off, i = .upd len off) ∨ (∃ b, i = .updb b) ∨ i = .final)
    (hss : s.ss ≠ .running) : exec i s = .next (failed s .eState) := by
  have hstream := stream?_eq_none_of_not_running hss
  obtain ⟨len, off, rfl⟩ | ⟨b, rfl⟩ | rfl := hi
  · exact execUpdOn_of_none hstream len off
  · exact execUpdb_of_none hstream b
  · exact execFinal_of_none hstream

/-- Settles O20: a failure moves nothing, BEGIN, FINAL, CONS and RST have one way to answer `OK` each, and no other command's
change moves `SS`. -/
theorem streamStateMovesAsListed : Obligations.StreamStateMovesAsListed := by
  refine ⟨fun i s t q ht hq => ?_, fun i s hi hss => exec_of_not_running hi hss,
    fun s rest hport => ⟨_, step_of_hardReset hport, rfl⟩⟩
  obtain ⟨hok, u, hchange, heq⟩ | ⟨hst, rfl⟩ := execOn_cases (exec_eq_execOn i s ▸ ht) hq
  · obtain ⟨st, r⟩ := q
    obtain rfl : st = .ok := hok
    refine ⟨fun hne => absurd rfl hne, fun _ => ⟨?_, ?_, ?_, ?_⟩⟩
    · rintro rfl
      obtain ⟨e, he, rfl⟩ := begin_of_ok ht hq
      exact ⟨rfl, e, he, rfl⟩
    · rintro rfl
      obtain ⟨e, c, hstream, rfl⟩ := final_of_ok ht hq
      exact ⟨(stream?_eq_some.mp hstream).1, rfl⟩
    · rintro (rfl | rfl)
      · rw [cons_of_ok ht hq]
        rfl
      · rw [respond_eq_next ht]
        rfl
    · intro hbegin hfinal hcons hrst
      rw [heq, answer_ss, hchange.ss_eq hbegin hfinal hcons hrst]
  · exact ⟨fun _ => failed_ss _ _, fun hok => by simp [hok] at hst⟩

end Sys2Proof.Machine
end

section
/-! SUPPORT. The sticky bits of `ERR` (spec/10_state.md R29) and the view `STATUS` (R30). -/

namespace Sys2Proof.Machine

/-- The code of a failure other than `E_IO` names one of the bits 1 to 4 (R29, R215). -/
theorem Status.code_of_failure {st : Status} (hok : st ≠ .ok) (hio : st ≠ .eIo) : 1 ≤ st.code ∧ st.code ≤ 4 := by
  cases st with
  | ok => exact absurd rfl hok
  | eIo => exact absurd rfl hio
  | eIllegal | eState | eArg | eSelftest => decide

/-- A failure sets the bit of its code and clears none (R29). -/
theorem getLsbD_failed_err (s : State) (st : Status) (k : Nat) :
    (failed s st).err.getLsbD k = (s.err.getLsbD k || decide (k = st.code)) := by
  have hcode : st.code < 64 := by cases st <;> decide
  have hbit : ((1 : Word) <<< st.code).getLsbD k = decide (k = st.code) := by
    rw [show (1 : Word) <<< st.code = BitVec.twoPow 64 st.code from (BitVec.twoPow_eq 64 st.code).symm,
      BitVec.getLsbD_twoPow, decide_eq_true hcode, Bool.true_and]
    exact decide_eq_decide.mpr eq_comm
  rw [failed_err, BitVec.getLsbD_or, hbit]

/-- An RST taken from the port leaves `ERR` clear (R201). -/
theorem step_rst_err {s t : State} {w : CommandWord} {rest : List PortInput} (hport : s.port = .command w :: rest)
    (hdecode : decode w = .ok .rst) (ht : step s = .next t) : t.err = 0 := by
  rw [step, stepWith_of_decode exec hport hdecode] at ht
  rw [respond_eq_next ht]
  rfl

/-- Settles O11: a command other than RST that answers `OK` leaves `ERR` alone, and a failure sets the bit of its code. -/
theorem errorFlagsAreSticky : Obligations.ErrorFlagsAreSticky := by
  refine ⟨fun s rest hport => ⟨_, step_of_hardReset hport, rfl⟩, fun s t w rest q hport ht hq => ?_⟩
  by_cases hrst : decode w = .ok .rst
  · have herr := step_rst_err hport hrst ht
    exact ⟨fun _ => herr, fun hne => absurd hrst hne, fun _ k _ => by rw [herr]; exact BitVec.getLsbD_zero⟩
  obtain ⟨hok, i, u, hdecode, hchange, rfl⟩ | ⟨hok, hio, rfl⟩ := step_command_cases hport ht hq
  · have herr : (u.answer .ok q.r).err = s.err := hchange.err_eq fun hi => hrst (hi ▸ hdecode)
    rw [herr]
    exact ⟨fun h => absurd h hrst, fun _ k => by simp [hok], fun hreserved => hreserved⟩
  · obtain ⟨hmin, hmax⟩ := Status.code_of_failure hok hio
    refine ⟨fun h => absurd h hrst, fun _ k => ?_, fun hreserved k hk => ?_⟩
    · rw [getLsbD_failed_err, decide_eq_true hok, Bool.true_and]
    · rw [getLsbD_failed_err, hreserved k hk, Bool.false_or]
      exact decide_eq_false (by omega)

/-- The four values of `STATUS` are those of the states with an engine while the stream is not IDLE (R30, R39). -/
theorem status_values {s : State} (h : s.ss ≠ .idle → s.engine.isSome = true) :
    s.status = 0 ∨ s.status = 1 ∨ s.status = 3 ∨ s.status = 5 := by
  unfold State.status State.ev
  cases hss : s.ss with
  | idle => cases s.engine.isSome <;> decide
  | running | spent =>
    rw [h (by simp [hss])]
    decide

/-- Settles O54: by the three stream states, with and without an engine. -/
theorem statusShowsEngineAndStream : Obligations.StatusShowsEngineAndStream := by
  intro s
  have hbits : s.status.getLsbD 0 = s.engine.isSome ∧ (s.status.extractLsb' 1 2).toNat = s.ss.code ∧
      s.status.extractLsb' 3 61 = 0 := by
    unfold State.status State.ev
    generalize s.engine.isSome = ev
    cases s.ss <;> cases ev <;> decide
  obtain ⟨hev, hss, hzero⟩ := hbits
  exact ⟨hev, hss, hzero, fun hinv => status_values fun h => (hinv.stream_has h).1⟩

end Sys2Proof.Machine
end

section
/-! SUPPORT. The bound `E_MASK` on the registers of a well-formed engine and on the checksums it answers
(spec/10_state.md R38, spec/44_engine_compute.md R182). -/

namespace Sys2Proof.Machine

namespace Engine.Masked

variable {e : Engine} (h : e.Masked)
include h

theorem and_mask_le (x : Word) : x &&& e.mask ≤ e.mask := (h.le_mask_iff _).mpr (h.toNat_and_mask_lt x)

theorem poly_le_mask : e.poly ≤ e.mask := (h.le_mask_iff _).mpr h.poly_lt

theorem rPoly_le_mask : e.rPoly ≤ e.mask := (h.le_mask_iff _).mpr h.rPoly_lt

theorem raw_le_mask (b : Byte) : raw e b ≤ e.mask := (h.le_mask_iff _).mpr (h.raw_lt b)

/-- FINAL's mask bounds every checksum (R175). -/
theorem fin_le_mask (c : Word) : fin e c ≤ e.mask := h.and_mask_le _

theorem checksum_le_mask (m : List Byte) : checksum e m ≤ e.mask := h.fin_le_mask _

end Engine.Masked

namespace Engine.Wf

variable {e : Engine} (h : e.Wf)
include h

theorem init_le_mask : e.init ≤ e.mask := by
  have hinit : e.init &&& e.mask = e.init := by
    conv_rhs => rw [← h.constructed]
    rw [h.masked.mask_eq]
    rfl
  exact hinit ▸ h.masked.and_mask_le e.init

theorem xorOut_le_mask : e.xorOut ≤ e.mask := by
  have hxorOut : e.xorOut &&& e.mask = e.xorOut := by
    conv_rhs => rw [← h.constructed]
    rw [h.masked.mask_eq]
    rfl
  exact hxorOut ▸ h.masked.and_mask_le e.xorOut

theorem mem_lut_le_mask {x : Word} (hx : x ∈ e.lut) : x ≤ e.mask := (h.masked.le_mask_iff x).mpr (h.lut_lt hx)

end Engine.Wf

/-- The command answers nothing above `bound`: it fails, or its value is at most that. -/
def AnswersAtMost (bound : Word) (s : State) (o : Result) : Prop :=
  ∀ (t : State) (r : Word), o = .next t → t.responses = ⟨.ok, r⟩ :: s.responses → r ≤ bound

section
variable {bound : Word} {s : State}

theorem answersAtMost_respond {u : State} {v : Word} (hv : v ≤ bound) : AnswersAtMost bound s (u.respond v) := by
  intro t r ht hr
  rw [respond_eq_next ht] at hr
  cases (List.cons.inj hr).1
  exact hv

theorem answersAtMost_raise {st : Status} (hst : st ≠ .ok) : AnswersAtMost bound s (s.raise st) := by
  intro t r ht hr
  rw [raise_eq_next ht] at hr
  cases (List.cons.inj hr).1
  exact absurd rfl hst

end

/-- The commands that answer a checksum, a raw byte or a table entry answer at most `E_MASK` (R38). -/
theorem exec_answersAtMost_mask {s : State} {e : Engine} (h : e.Wf) (he : s.engine = some e) {i : Instr}
    (hi : i = .final ∨ i = .getchk ∨ i = .check ∨ (∃ len off, i = .compute len off) ∨ (∃ b, i = .rawb b) ∨
      ∃ k, i = .rdlut k) : AnswersAtMost e.mask s (exec i s) := by
  obtain rfl | rfl | rfl | ⟨len, off, rfl⟩ | ⟨b, rfl⟩ | ⟨k, rfl⟩ := hi
  · change AnswersAtMost e.mask s (execFinal s)
    unfold execFinal
    split
    · exact answersAtMost_raise nofun
    · next e' c hstream =>
      obtain ⟨-, he', -⟩ := stream?_eq_some.mp hstream
      obtain rfl := Option.some.inj (he.symm.trans he')
      exact answersAtMost_respond (h.masked.fin_le_mask c)
  · change AnswersAtMost e.mask s (execGetchk s)
    rw [execGetchk_of_some he]
    exact answersAtMost_respond (h.masked.checksum_le_mask _)
  · change AnswersAtMost e.mask s (execCheck s)
    rw [execCheck_of_some he]
    split
    · exact answersAtMost_raise nofun
    · exact answersAtMost_respond (h.masked.checksum_le_mask _)
  · change AnswersAtMost e.mask s (execComputeOn hardware len off s)
    rw [execComputeOn_of_some he]
    split
    · exact answersAtMost_respond (h.masked.checksum_le_mask _)
    · exact answersAtMost_raise nofun
  · change AnswersAtMost e.mask s (execRawb b s)
    rw [execRawb_of_some he]
    exact answersAtMost_respond (h.masked.raw_le_mask b)
  · change AnswersAtMost e.mask s (execRdlut k s)
    cases hx : e.lut[k]? with
    | none =>
      rw [execRdlut_of_no_entry he hx]
      exact answersAtMost_raise nofun
    | some x =>
      rw [execRdlut_of_entry he hx]
      exact answersAtMost_respond (h.mem_lut_le_mask (List.mem_of_getElem? hx))

/-- No checksum equals a check value above `E_MASK`, so CHECK fails (R182). -/
theorem check_fails_of_mask_lt {s : State} {e : Engine} (h : e.Wf) (he : s.engine = some e) (hlt : e.mask < e.check) :
    exec .check s = .next (failed s .eSelftest) := by
  have hle : checksum e checkMessage ≤ e.mask := h.masked.checksum_le_mask _
  have hne : checksum e checkMessage ≠ e.check := fun heq => BitVec.not_le.mpr hlt (heq ▸ hle)
  calc exec .check s = s.raise .eSelftest := (execCheck_of_some he).trans (if_pos hne)
    _ = .next (failed s .eSelftest) := raise_eq_failed s nofun

/-- Settles O55: the engine is one CONS built, so its registers and its table are masked, and so is every answer. -/
theorem everyChecksumIsMasked : Obligations.EveryChecksumIsMasked := by
  intro s e hinv he
  have hwf := hinv.engine_wf e he
  exact ⟨hwf.masked.poly_le_mask, hwf.init_le_mask, hwf.xorOut_le_mask, hwf.crcInit_le_mask,
    hwf.masked.rPoly_le_mask, fun _ => hwf.mem_lut_le_mask, fun hss c hc => hinv.reg_masked hss e c he hc,
    fun _ r t hi ht hr => exec_answersAtMost_mask hwf he hi t r ht hr, check_fails_of_mask_lt hwf he⟩

end Sys2Proof.Machine
end

section
/-! SUPPORT. The state after reset (spec/10_state.md R41), and that a stream has an engine (R39). -/

namespace Sys2Proof.Machine

/-- Settles O8: field by field. -/
theorem resetStateIsTheTableOfReset : Obligations.ResetStateIsTheTableOfReset := by
  refine ⟨fun f => ?_, rfl, rfl, rfl, rfl, rfl⟩
  cases f <;> rfl

/-- Settles O57: nothing is staged, there is no engine and no stream, and no bit of `ERR` is set. -/
theorem invariantHoldsAtReset : Obligations.InvariantHoldsAtReset where
  staging_bits := Nat.zero_le 64
  engine_wf := nofun
  stream_has := fun hss => absurd rfl hss
  reg_masked := nofun
  err_reserved := fun _ _ => BitVec.getLsbD_zero
  buf_wf := reset_buf_wf

/-- A stream state other than IDLE has an engine (R39). -/
def State.StreamHasEngine (s : State) : Prop := s.ss ≠ .idle → s.engine.isSome = true

namespace State.StreamHasEngine

variable {p : Params} {i : Instr} {s t u : State}

theorem of_idle (h : s.ss = .idle) : s.StreamHasEngine := fun hss => absurd h hss

/-- BEGIN needs the engine, FINAL a running stream, and what removes or replaces the engine stops the stream (R158, R171,
R174, R201). -/
theorem change (h : s.StreamHasEngine) (hchange : Change p i s u) : u.StreamHasEngine := by
  cases hchange with
  | reset | cons => exact of_idle rfl
  | begin he => exact fun _ => Option.isSome_of_eq_some he
  | finish hstream => exact fun _ => Option.isSome_of_eq_some (stream?_eq_some.mp hstream).2.1
  | keep | stage | load | feedChunk | feedByte | write => exact h

theorem exec (h : s.StreamHasEngine) (ht : exec i s = .next t) : t.StreamHasEngine := by
  rw [exec_eq_execOn] at ht
  obtain ⟨u, v, hchange, rfl⟩ | ⟨st, -, rfl⟩ := execOn_eq_next ht
  · have hkept : u.StreamHasEngine := h.change hchange
    exact hkept
  · exact h

theorem step (h : s.StreamHasEngine) (ht : step s = .next t) : t.StreamHasEngine := by
  obtain ⟨-, heq⟩ | ⟨-, heq⟩ | ⟨i, -, heq⟩ | ⟨why, -, heq⟩ := step_cases s
  · cases heq.symm.trans ht
    exact h
  · cases heq.symm.trans ht
    exact of_idle rfl
  · exact State.StreamHasEngine.exec (s := s.popPort) h (heq.symm.trans ht)
  · rw [raise_eq_next (heq.symm.trans ht)]
    exact h

end State.StreamHasEngine

/-- Settles O56: a step is idle, a reset, an illegal word or one command, and each keeps it. -/
theorem streamNeedsAnEngine : Obligations.StreamNeedsAnEngine :=
  ⟨State.StreamHasEngine.of_idle rfl, fun _ _ h ht => State.StreamHasEngine.step h ht⟩

end Sys2Proof.Machine
end

section
/-! SUPPORT. No response but FINAL's depends on the running register (spec/10_state.md R40). -/

namespace Sys2Proof.Machine

/-- The responses given when a command has ended. -/
def responsesAfter : Result → List Response
  | .next t => t.responses
  | .fault _ => []
  | .refused _ => []

/-- The state with a value in the running register. -/
def State.withReg (s : State) (c : Word) : State := { s with reg := some c }

/-- Whether a stream runs, and by which engine, does not depend on the value in the running register (R28). -/
theorem stream?_withReg_cases (s : State) :
    (∀ c, (s.withReg c).stream? = none) ∨ ∃ e, ∀ c, (s.withReg c).stream? = some (e, c) := by
  by_cases hss : s.ss = .running
  · cases he : s.engine with
    | none => exact .inl fun c => by simp only [State.stream?, State.withReg, hss, he]
    | some e => exact .inr ⟨e, fun c => stream?_eq_some.mpr ⟨hss, he, rfl⟩⟩
  · exact .inl fun c => stream?_eq_none_of_not_running hss

/-- Which response a command other than FINAL gives is decided by its operands, the staging registers, the engine, the buffer
and `SS`, which the two states share. -/
theorem responsesAfter_exec_withReg (s : State) (c c' : Word) {i : Instr} (hi : i ≠ .final) :
    responsesAfter (exec i (s.withReg c)) = responsesAfter (exec i (s.withReg c')) := by
  cases i with
  | final => exact absurd rfl hi
  | nop | rst => rfl
  | cons | refl | wrb | rdb =>
    simp only [exec, execCons, execRefl, execWrb, execWrbOn, execRdb, execRdbOn, apply_ite responsesAfter]
    rfl
  | wrd reg v =>
    simp only [exec, execWrd, State.withReg]
    split
    · cases writeField? s.staging _ v <;> rfl
    · rfl
  | ldcat k =>
    simp only [exec, execLdcat, execLdcatOn]
    cases catalogueEntry? hardware k <;> rfl
  | rdcat entry sel =>
    simp only [exec, execRdcat, execRdcatOn]
    cases catalogueEntry? hardware entry with
    | none => rfl
    | some x => cases Selector.ofCode? sel <;> rfl
  | rdr reg =>
    simp only [exec, execRdr, execRdrOn, State.withReg]
    cases Reg.ofIndex? reg with
    | none => rfl
    | some r =>
      cases r with
      | staging | info => rfl
      | active | derived => cases s.engine <;> rfl
  | rawb | getchk | begin =>
    simp only [exec, execRawb, execGetchk, execBegin, State.withReg]
    cases s.engine <;> rfl
  | rdlut k =>
    simp only [exec, execRdlut, State.withReg]
    cases s.engine with
    | none => rfl
    | some e =>
      dsimp only
      cases e.lut[k]? <;> rfl
  | check | compute =>
    simp only [exec, execCheck, execCompute, execComputeOn, State.withReg]
    cases s.engine with
    | none => rfl
    | some e =>
      simp only [apply_ite responsesAfter]
      rfl
  | upd | updb =>
    obtain hnone | ⟨e, hsome⟩ := stream?_withReg_cases s
    · simp only [exec, execUpd, execUpdOn, execUpdb, hnone]
      rfl
    · simp only [exec, execUpd, execUpdOn, execUpdb, hsome, apply_ite responsesAfter]
      rfl

/-- Settles O59: the two runs differ in the running register only, so they give the same response. -/
theorem runningRegisterIsHidden : Obligations.RunningRegisterIsHidden := by
  intro i s t t' c c' hi ht ht'
  have hsame := responsesAfter_exec_withReg s c c' hi
  rwa [State.withReg, State.withReg, ht, ht'] at hsame

end Sys2Proof.Machine
end

section
/-! SUPPORT. The four reads (spec/20_memory.md R69): they only answer, and a response given in between does not change what
they answer. -/

namespace Sys2Proof.Machine

/-- One command carried out in two states makes the same reading: it answers the same value in both, or it raises the same
status in both, and changes nothing else in either. -/
inductive SameReading (s u : State) : Result → Result → Prop where
  | answers (v : Word) : SameReading s u (s.respond v) (u.respond v)
  | fails (st : Status) (hst : st ≠ .ok) : SameReading s u (s.raise st) (u.raise st)

section
variable (p : Params) (s : State) (st : Status) (r : Word)

/-- What RDR reads are the registers, and a response changes none of them (R154). -/
theorem execRdrOn_answer (reg : Nat) :
    SameReading s (s.answer st r) (execRdrOn p reg s) (execRdrOn p reg (s.answer st r)) := by
  simp only [execRdrOn, answer_engine]
  cases Reg.ofIndex? reg with
  | none => exact .fails .eArg nofun
  | some x =>
    cases x with
    | staging f => exact .answers (readField s.staging f)
    | info j => exact .answers (readInfo p s j)
    | active f =>
      cases s.engine with
      | none => exact .fails .eState nofun
      | some e => exact .answers (readField e.toDefinition f)
    | derived d =>
      cases s.engine with
      | none => exact .fails .eState nofun
      | some e => exact .answers (readDerived e d)

/-- What RDLUT reads is the engine's table (R137). -/
theorem execRdlut_answer (k : Nat) :
    SameReading s (s.answer st r) (execRdlut k s) (execRdlut k (s.answer st r)) := by
  simp only [execRdlut, answer_engine]
  cases s.engine with
  | none => exact .fails .eState nofun
  | some e =>
    dsimp only
    cases e.lut[k]? with
    | none => exact .fails .eArg nofun
    | some x => exact .answers x

/-- What RDCAT reads is the catalogue, which is no part of the state (R193). -/
theorem execRdcatOn_answer (entry sel : Nat) :
    SameReading s (s.answer st r) (execRdcatOn p entry sel s) (execRdcatOn p entry sel (s.answer st r)) := by
  simp only [execRdcatOn]
  cases catalogueEntry? p entry with
  | none => exact .fails .eArg nofun
  | some c =>
    dsimp only
    cases Selector.ofCode? sel with
    | none => exact .fails .eArg nofun
    | some x => exact .answers (readEntry c x)

/-- What RDB reads is the buffer (R203). -/
theorem execRdbOn_answer (idx : Nat) :
    SameReading s (s.answer st r) (execRdbOn p idx s) (execRdbOn p idx (s.answer st r)) := by
  simp only [execRdbOn, answer_memRead]
  split
  · exact .answers _
  · exact .fails .eArg nofun

end

/-- A reading that answered `OK` left only its response, and so does the same reading in the other state. -/
theorem SameReading.answered_of_ok {s t u : State} {q : Response} {a b : Result} (h : SameReading s u a b)
    (ha : a = .next t) (hq : t.responses = q :: s.responses) (hok : q.st = .ok) :
    t = answered s q.r ∧ b = .next (answered u q.r) := by
  cases h with
  | answers v =>
    obtain rfl := respond_eq_next ha
    obtain rfl := (List.cons.inj hq).1
    exact ⟨rfl, rfl⟩
  | fails st hst =>
    obtain rfl := raise_eq_next ha
    obtain rfl := (List.cons.inj hq).1
    exact absurd hok hst

/-- Settles O60: repeating a read is reading again after its own response. -/
theorem readsHaveNoSideEffect : Obligations.ReadsHaveNoSideEffect := by
  intro i s t q hread ht hq hok
  have hsame : SameReading s (s.answer .ok q.r) (exec i s) (exec i (s.answer .ok q.r)) := by
    obtain ⟨reg, rfl⟩ | ⟨idx, rfl⟩ | ⟨k, rfl⟩ | ⟨entry, sel, rfl⟩ := hread
    · exact execRdrOn_answer hardware s .ok q.r reg
    · exact execRdbOn_answer hardware s .ok q.r idx
    · exact execRdlut_answer s .ok q.r k
    · exact execRdcatOn_answer hardware s .ok q.r entry sel
  obtain ⟨rfl, hrepeat⟩ := hsame.answered_of_ok ht hq hok
  exact ⟨rfl, hrepeat⟩

end Sys2Proof.Machine
end

section
/-! SUPPORT. The decoder against the encoder (spec/30_encoding.md R80, R82 to R84). A command word is its four fields
(`commandWord_fields`), and an opcode with two operand fields is the command `Instr.withOperands` (`commandOf_eq_some_iff`), so
what the decoder and the encoder do is said of the operand fields alone. -/

namespace Sys2Proof

open Machine Laws

/-! ### The fields of a word -/

/-- A command word is its four fields (R80). -/
theorem commandWord_fields (w : CommandWord) : commandWord (opField w) (rsvField w) (aField w) (vField w) = w := by
  have hhigh : opField w ++ rsvField w = w.extractLsb' 80 16 :=
    BitVec.extractLsb'_append_extractLsb'_eq_extractLsb' rfl
  have hmid : w.extractLsb' 80 16 ++ aField w = w.extractLsb' 64 32 :=
    BitVec.extractLsb'_append_extractLsb'_eq_extractLsb' rfl
  calc commandWord (opField w) (rsvField w) (aField w) (vField w) = w.extractLsb' 64 32 ++ w.extractLsb' 0 64 := by
        rw [commandWord, hhigh, hmid, vField]
    _ = w := BitVec.extractLsb'_append_extractLsb'

/-- Words assembled from different fields are different (R80). -/
theorem commandWord_inj {op op' rsv rsv' : Byte} {a a' : BitVec 16} {v v' : Word}
    (h : commandWord op rsv a v = commandWord op' rsv' a' v') : op = op' ∧ rsv = rsv' ∧ a = a' ∧ v = v' := by
  obtain ⟨hop, hrsv, ha, hv⟩ := fields_commandWord op rsv a v
  rw [h] at hop hrsv ha hv
  obtain ⟨hop', hrsv', ha', hv'⟩ := fields_commandWord op' rsv' a' v'
  exact ⟨hop.symm.trans hop', hrsv.symm.trans hrsv', ha.symm.trans ha', hv.symm.trans hv'⟩

/-! ### The operand bits a command reads -/

/-- The bits of the field `a` a command reads (R83, R84). -/
def Instr.aMask : Instr → BitVec 16
  | .nop | .rst | .cons | .begin | .final | .getchk | .check => 0
  | .rawb _ | .updb _ => 0x00FF
  | .wrd _ _ | .rdr _ | .refl _ _ | .rdlut _ | .upd _ _ | .compute _ _ | .ldcat _ | .rdcat _ _ | .wrb _ _ | .rdb _ => 0xFFFF

/-- The bits of the field `v` a command reads (R83, R84). -/
def Instr.vMask : Instr → Word
  | .wrd _ _ | .refl _ _ => 0xFFFFFFFFFFFFFFFF
  | .upd _ _ | .compute _ _ => 0xFFFF
  | .wrb _ _ => 0xFF
  | .nop | .rst | .rdr _ | .cons | .rawb _ | .rdlut _ | .begin | .updb _ | .final | .getchk | .check | .ldcat _
  | .rdcat _ _ | .rdb _ => 0

/-- The used bits of a word are the whole of `op` and `rsv` and the operand bits. -/
theorem usedBits_eq_commandWord (i : Instr) : usedBits i = commandWord 0xFF 0xFF i.aMask i.vMask := by
  cases i <;> simp only [usedBits, Instr.aMask, Instr.vMask] <;> decide

/-- Masking a word is masking its fields. -/
theorem commandWord_and (op op' rsv rsv' : Byte) (a a' : BitVec 16) (v v' : Word) :
    commandWord op rsv a v &&& commandWord op' rsv' a' v' =
      commandWord (op &&& op') (rsv &&& rsv') (a &&& a') (v &&& v') := by
  change (op ++ rsv ++ a ++ v) &&& (op' ++ rsv' ++ a' ++ v') = _
  rw [BitVec.and_append, BitVec.and_append, BitVec.and_append, commandWord]

/-- A word cut to the bits a command reads keeps `op` and `rsv` whole. -/
theorem and_usedBits (w : CommandWord) (i : Instr) :
    w &&& usedBits i = commandWord (opField w) (rsvField w) (aField w &&& i.aMask) (vField w &&& i.vMask) := by
  have hall (x : Byte) : x &&& 0xFF = x := BitVec.and_allOnes
  conv_lhs => rw [← commandWord_fields w, usedBits_eq_commandWord, commandWord_and, hall, hall]

/-! ### The command of an opcode and two operand fields -/

/-- The command with the opcode of `i` and the operands it uses of `a` and `v` (R84). -/
def Instr.withOperands (i : Instr) (a : BitVec 16) (v : Word) : Instr :=
  match i with
  | .nop => .nop
  | .rst => .rst
  | .wrd _ _ => .wrd a.toNat v
  | .rdr _ => .rdr a.toNat
  | .cons => .cons
  | .refl _ _ => .refl a.toNat v
  | .rawb _ => .rawb (a.setWidth 8)
  | .rdlut _ => .rdlut a.toNat
  | .begin => .begin
  | .upd _ _ => .upd a.toNat (offsetOf v)
  | .updb _ => .updb (a.setWidth 8)
  | .final => .final
  | .compute _ _ => .compute a.toNat (offsetOf v)
  | .getchk => .getchk
  | .check => .check
  | .ldcat _ => .ldcat a.toNat
  | .rdcat _ _ => .rdcat (a.extractLsb' 8 8).toNat (a.extractLsb' 0 8).toNat
  | .wrb _ _ => .wrb a.toNat (v.setWidth 8)
  | .rdb _ => .rdb a.toNat

/-- The decoder's table, read by the command an opcode names (R84). -/
theorem commandOf_opcode (i : Instr) (a : BitVec 16) (v : Word) :
    commandOf i.opcode a v = some (i.withOperands a v) := by
  cases i <;> rfl

/-- No two opcodes name the same command (R84). -/
theorem opcode_of_commandOf {op : Byte} {a : BitVec 16} {v : Word} {i : Instr} (h : commandOf op a v = some i) :
    op = i.opcode := by
  unfold commandOf at h
  split at h <;> cases h <;> exact BitVec.eq_of_toNat_eq ‹_›

/-- The decoder names a command when the opcode is the command's and its operands are those of the two fields. -/
theorem commandOf_eq_some_iff {op : Byte} {a : BitVec 16} {v : Word} {i : Instr} :
    commandOf op a v = some i ↔ op = i.opcode ∧ i.withOperands a v = i := by
  constructor
  · intro h
    obtain rfl := opcode_of_commandOf h
    exact ⟨rfl, Option.some.inj ((commandOf_opcode i a v).symm.trans h)⟩
  · rintro ⟨rfl, h⟩
    rw [commandOf_opcode, h]

/-- The decoder accepts a word as a command when `rsv` is zero, the opcode is the command's, and its operands are those of the
word (R82). -/
theorem decode_eq_ok_iff {w : CommandWord} {i : Instr} :
    decode w = .ok i ↔ rsvField w = 0 ∧ opField w = i.opcode ∧ i.withOperands (aField w) (vField w) = i := by
  rw [← commandOf_eq_some_iff]
  unfold decode
  split
  · next hrsv => exact iff_of_false nofun fun h => hrsv h.1
  · next hrsv => cases commandOf (opField w) (aField w) (vField w) <;> simp [not_not.mp hrsv]

/-! ### Operand fields and their masks -/

section
variable {k w : Nat} (x : BitVec w) (i : Instr) (a : BitVec 16) (v : Word)

theorem ofNat_toNat_self : BitVec.ofNat w x.toNat = x := (BitVec.ofNat_toNat w x).trans (BitVec.setWidth_eq x)

theorem toNat_ofNat_of_lt {n : Nat} (h : n < 2 ^ w) : (BitVec.ofNat w n).toNat = n :=
  (BitVec.toNat_ofNat n w).trans (Nat.mod_eq_of_lt h)

/-- A value survives being widened and cut back. -/
theorem setWidth_setWidth_self (y : BitVec k) (hk : k ≤ w) : (y.setWidth w).setWidth k = y := by
  rw [BitVec.setWidth_setWidth_of_le _ hk, BitVec.setWidth_eq]

/-- Masking with the low `k` bits is cutting to `k` bits. -/
theorem and_lowOnes (k : Nat) : x &&& (BitVec.allOnes k).setWidth w = (x.setWidth k).setWidth w := by
  ext j hj
  simp [hj, Bool.and_comm]

theorem and_0xFFFF : a &&& 0xFFFF = a := BitVec.and_allOnes

theorem and_0x00FF : a &&& 0x00FF = (a.setWidth 8).setWidth 16 := and_lowOnes a 8

theorem word_and_ones : v &&& 0xFFFFFFFFFFFFFFFF = v := BitVec.and_allOnes

theorem word_and_0xFFFF : v &&& 0xFFFF = (v.setWidth 16).setWidth 64 := and_lowOnes v 16

theorem word_and_0xFF : v &&& 0xFF = (v.setWidth 8).setWidth 64 := and_lowOnes v 8

/-- A command read from operand fields is well formed. -/
theorem withOperands_wellFormed : (i.withOperands a v).wellFormed = true := by
  cases i with
  | nop | rst | cons | begin | final | getchk | check | rawb | updb => rfl
  | wrd | refl | rdr | rdlut | ldcat | rdb | wrb => exact decide_eq_true a.isLt
  | upd | compute => exact Bool.and_eq_true_iff.mpr ⟨decide_eq_true a.isLt, decide_eq_true (v.setWidth 16).isLt⟩
  | rdcat =>
    exact Bool.and_eq_true_iff.mpr ⟨decide_eq_true (a.extractLsb' 8 8).isLt, decide_eq_true (a.extractLsb' 0 8).isLt⟩

/-- A command read from operand fields is written with the bits of `a` that it reads (R83, R87). -/
theorem aOperand_withOperands : (i.withOperands a v).aOperand = a &&& i.aMask := by
  cases i with
  | nop | rst | cons | begin | final | getchk | check => exact BitVec.and_zero.symm
  | rawb | updb => exact (and_0x00FF a).symm
  | wrd | refl | rdr | rdlut | upd | compute | ldcat | wrb | rdb => exact (ofNat_toNat_self a).trans (and_0xFFFF a).symm
  | rdcat =>
    simp only [Instr.withOperands, Instr.aOperand, Instr.aMask, ofNat_toNat_self, and_0xFFFF]
    exact BitVec.extractLsb'_append_extractLsb'

/-- The same for `v`. -/
theorem vOperand_withOperands : (i.withOperands a v).vOperand = v &&& i.vMask := by
  cases i with
  | wrd | refl => exact (word_and_ones v).symm
  | upd | compute =>
    simp only [Instr.withOperands, Instr.vOperand, Instr.vMask, offsetOf, ofNat_toNat_self, word_and_0xFFFF]
  | wrb => exact (word_and_0xFF v).symm
  | nop | rst | rdr | cons | rawb | rdlut | begin | updb | final | getchk | check | ldcat | rdcat | rdb =>
    exact BitVec.and_zero.symm

/-- The bits a command ignores do not change the operands it reads (R83). -/
theorem withOperands_and_masks : i.withOperands (a &&& i.aMask) (v &&& i.vMask) = i.withOperands a v := by
  cases i with
  | nop | rst | cons | begin | final | getchk | check => rfl
  | wrd | refl | rdr | rdlut | ldcat | rdcat | rdb =>
    simp only [Instr.withOperands, Instr.aMask, Instr.vMask, and_0xFFFF, word_and_ones]
  | rawb | updb =>
    simp only [Instr.withOperands, Instr.aMask, and_0x00FF, setWidth_setWidth_self _ (Nat.le_add_right 8 8)]
  | upd | compute =>
    simp only [Instr.withOperands, Instr.aMask, Instr.vMask, offsetOf, and_0xFFFF, word_and_0xFFFF,
      setWidth_setWidth_self _ (Nat.le_add_right 16 48)]
  | wrb =>
    simp only [Instr.withOperands, Instr.aMask, Instr.vMask, and_0xFFFF, word_and_0xFF,
      setWidth_setWidth_self _ (Nat.le_add_right 8 56)]

/-- A well-formed command is read back from the operands it is written with. -/
theorem withOperands_operands (h : i.wellFormed = true) : i.withOperands i.aOperand i.vOperand = i := by
  cases i with
  | nop | rst | cons | begin | final | getchk | check => rfl
  | wrd | refl | rdr | rdlut | ldcat | rdb =>
    simp only [Instr.withOperands, Instr.aOperand, Instr.vOperand, toNat_ofNat_of_lt (of_decide_eq_true h)]
  | rawb | updb =>
    simp only [Instr.withOperands, Instr.aOperand, setWidth_setWidth_self _ (Nat.le_add_right 8 8)]
  | upd | compute =>
    obtain ⟨hlen, hoff⟩ := Bool.and_eq_true_iff.mp h
    simp only [Instr.withOperands, Instr.aOperand, Instr.vOperand, offsetOf, toNat_ofNat_of_lt (of_decide_eq_true hlen),
      setWidth_setWidth_self _ (Nat.le_add_right 16 48), toNat_ofNat_of_lt (of_decide_eq_true hoff)]
  | rdcat =>
    obtain ⟨hentry, hsel⟩ := Bool.and_eq_true_iff.mp h
    simp only [Instr.withOperands, Instr.aOperand]
    rw [BitVec.extractLsb'_append_eq_left, BitVec.extractLsb'_append_eq_right,
      toNat_ofNat_of_lt (of_decide_eq_true hentry), toNat_ofNat_of_lt (of_decide_eq_true hsel)]
  | wrb =>
    simp only [Instr.withOperands, Instr.aOperand, Instr.vOperand, toNat_ofNat_of_lt (of_decide_eq_true h),
      setWidth_setWidth_self _ (Nat.le_add_right 8 56)]

end

/-- Settles O1: the fields of the command's word are its opcode and its operands, and the operands are read back. -/
theorem decodeInvertsEncode : Obligations.DecodeInvertsEncode := by
  intro i h
  obtain ⟨hop, hrsv, ha, hv⟩ := fields_commandWord i.opcode 0 i.aOperand i.vOperand
  rw [decode_eq_ok_iff, encode, hop, hrsv, ha, hv]
  exact ⟨rfl, rfl, withOperands_operands i h⟩

/-- The word of a decoded command is the word it was decoded from, cut to the bits the command reads. -/
theorem encode_of_decode {w : CommandWord} {i : Instr} (h : decode w = .ok i) : encode i = w &&& usedBits i := by
  obtain ⟨hrsv, hop, hi⟩ := decode_eq_ok_iff.mp h
  have ha := aOperand_withOperands i (aField w) (vField w)
  have hv := vOperand_withOperands i (aField w) (vField w)
  rw [hi] at ha hv
  rw [and_usedBits, encode, hrsv, hop, ha, hv]

/-- Settles O2: the command's own word is the given one cut to the used bits (`encode_of_decode`). -/
theorem decodedCommandFitsItsWord : Obligations.DecodedCommandFitsItsWord := by
  intro w i h
  obtain ⟨hrsv, hop, hi⟩ := decode_eq_ok_iff.mp h
  have hwf : i.wellFormed = true := hi ▸ withOperands_wellFormed i (aField w) (vField w)
  refine ⟨hwf, hrsv, hop, ?_, ?_⟩
  · rw [encode_of_decode h, BitVec.and_assoc, BitVec.and_self]
  · rw [encode_of_decode h, BitVec.and_assoc, BitVec.and_not_self]
    exact BitVec.and_zero

/-- Settles O3: the two words have the same `rsv`, opcode and used operand bits, and the operands are read from those. -/
theorem ignoredBitsDoNotMatter : Obligations.IgnoredBitsDoNotMatter := by
  intro w w' i h hsame
  obtain ⟨hrsv, hop, hi⟩ := decode_eq_ok_iff.mp h
  rw [and_usedBits, and_usedBits] at hsame
  obtain ⟨hop', hrsv', ha, hv⟩ := commandWord_inj hsame
  refine decode_eq_ok_iff.mpr ⟨hrsv'.trans hrsv, hop'.trans hop, ?_⟩
  rw [← withOperands_and_masks, ha, hv, withOperands_and_masks, hi]

/-- Settles O5: the words are closed, so the decoder evaluates them. -/
theorem wordsDecodeAsTheTableSays : Obligations.WordsDecodeAsTheTableSays := by
  unfold Obligations.WordsDecodeAsTheTableSays
  decide

end Sys2Proof
end

section
/-! SUPPORT. Every command is answered by one response (spec/30_encoding.md R81). -/

namespace Sys2Proof.Machine

variable {p : Params} {i : Instr} {s u : State}

/-- No command takes or presents an input: the step does that (R82). -/
theorem Change.port_eq (h : Change p i s u) : u.port = s.port := by
  cases h <;> rfl

/-- No command is a hardware reset (R240). -/
theorem Change.launch_eq (h : Change p i s u) : u.launch = s.launch := by
  cases h <;> rfl

/-- What was carried out in `s` ends in a next state with exactly one response more, whose value is 0 unless its status is
`OK`, and leaves alone what is still presented and the count of hardware resets. -/
def AnswersOnce (s : State) (o : Result) : Prop :=
  ∃ t q, o = .next t ∧ t.responses = q :: s.responses ∧ t.port = s.port ∧ t.launch = s.launch ∧ (q.st ≠ .ok → q.r = 0)

/-- A failure answers with value 0 (R217). -/
theorem answersOnce_failed (s : State) (st : Status) : AnswersOnce s (.next (failed s st)) :=
  ⟨_, ⟨st, 0⟩, rfl, rfl, rfl, rfl, fun _ => rfl⟩

/-- Every command answers once, whether it makes its change or fails. -/
theorem Ends.answersOnce {o : Result} (h : Ends p i s o) : AnswersOnce s o := by
  cases h with
  | answers hchange v =>
    exact ⟨_, ⟨.ok, v⟩, rfl, congrArg _ hchange.responses_eq, hchange.port_eq, hchange.launch_eq,
      fun hok => absurd rfl hok⟩
  | fails st hst => exact raise_eq_failed s (st := st) (by rintro rfl; simp at hst) ▸ answersOnce_failed s st

/-- A step with a command word presented answers once, also when the word does not decode (R85, R212). -/
theorem step_answersOnce {w : CommandWord} {rest : List PortInput} (hport : s.port = .command w :: rest) :
    AnswersOnce { s with port := rest } (step s) := by
  cases hdecode : decode w with
  | ok i =>
    rw [step, stepWith_of_decode exec hport hdecode]
    exact (exec_ends i _).answersOnce
  | error why =>
    rw [step_of_decode_error hport hdecode]
    exact answersOnce_failed _ _

/-- The layout of a response word (R81). -/
theorem encode_fields (q : Response) : q.encode.extractLsb' 68 4 = 0 ∧ (q.encode.extractLsb' 64 4).toNat = q.st.code ∧
    q.encode.extractLsb' 0 64 = q.r := by
  have hcode : q.st.code < 2 ^ 4 := by cases q.st <;> decide
  unfold Response.encode
  refine ⟨?_, ?_, BitVec.extractLsb'_append_eq_right⟩
  · rw [BitVec.extractLsb'_append_eq_of_le (by decide)]
    exact BitVec.extractLsb'_append_eq_left
  · rw [BitVec.extractLsb'_append_eq_of_le (by decide)]
    exact (congrArg BitVec.toNat BitVec.extractLsb'_append_eq_right).trans (toNat_ofNat_of_lt hcode)

/-- Settles O9: a word that decodes is one command, and any other word is one failure. -/
theorem everyCommandAnswersOnce : Obligations.EveryCommandAnswersOnce := by
  refine ⟨fun s w rest hport => ?_, fun i s => (exec_ends i s).answersOnce, encode_fields⟩
  obtain ⟨t, q, ht, hq, hrest, -, hzero⟩ := step_answersOnce hport
  exact ⟨t, q, ht, hq, hrest, hzero⟩

end Sys2Proof.Machine
end

section
/-! SUPPORT. WRD of a staging register (spec/43_definition_registers.md R153), and the runs of the pseudo-commands DEFINE and
LOADMSG (spec/30_encoding.md R88). -/

namespace Sys2Proof.Machine

/-- A one-bit register reads as the value that was written, 0 or 1 (R22). -/
theorem flagWord_getLsbD {v : Word} (hv : v.toNat ≤ 1) : flagWord (v.getLsbD 0) = v := by
  obtain rfl | rfl : v = 0 ∨ v = 1 := by bv_omega
  · rfl
  · rfl

/-- The seven bits of `D_BITS` hold every width (R22). -/
theorem setWidth_setWidth_bits {v : Word} (hv : v.toNat ≤ 64) : (v.setWidth 7).setWidth 64 = v := by
  bv_omega

/-- `D_STRAT` reads as the value that named the strategy (R22). -/
theorem ofNat_strategyCode {v : Word} {σ : Strategy} (h : strategyOf? v.toNat = some σ) :
    BitVec.ofNat 64 (strategyCode σ) = v := by
  apply BitVec.eq_of_toNat_eq
  unfold strategyOf? at h
  split at h <;> cases h <;> simp only [strategyCode, *] <;> rfl

/-- A written field reads as the value written, and the other fields as before (R22, R153). -/
theorem readField_of_writeField? {d d' : Definition} {f : Field} {v : Word} (h : writeField? d f v = some d') (g : Field) :
    readField d' g = if g = f then v else readField d g := by
  cases f with
  | poly | init | xorOut | check =>
    cases h
    cases g <;> rfl
  | bits =>
    simp only [writeField?, Option.ite_none_right_eq_some, Option.some.injEq] at h
    obtain ⟨⟨-, hmax⟩, rfl⟩ := h
    cases g with
    | bits => exact setWidth_setWidth_bits hmax
    | _ => rfl
  | refIn | refOut =>
    simp only [writeField?, Option.ite_none_right_eq_some, Option.some.injEq] at h
    obtain ⟨hv, rfl⟩ := h
    cases g <;> simp only [readField, flagWord_getLsbD hv, reduceCtorEq, ↓reduceIte]
  | strat =>
    simp only [writeField?] at h
    split at h
    · next σ hσ =>
      cases h
      cases g with
      | strat => exact ofNat_strategyCode hσ
      | _ => rfl
    · cases h

/-- A value that is no bad operand can be written (R22, R214). -/
theorem exists_writeField? (d : Definition) {f : Field} {v : Word} {s : State} (h : ¬ BadOperand (.wrd f.index v) s) :
    ∃ d', writeField? d f v = some d' := by
  cases f with
  | poly | init | xorOut | check => exact ⟨_, rfl⟩
  | bits | refIn | refOut =>
    exact ⟨_, if_pos (by simpa [BadOperandOn, Field.index, Config.bitsMin, Config.bitsMax] using h)⟩
  | strat =>
    have hv : v.toNat ≤ 2 := by simpa [BadOperandOn, Field.index] using h
    simp only [writeField?]
    interval_cases v.toNat <;> exact ⟨_, rfl⟩

/-- The indices 0 to 7 are the staging registers (R35). -/
theorem ofIndex?_index (f : Field) : Reg.ofIndex? f.index = some (.staging f) := by
  cases f <;> rfl

theorem exec_wrd_of_writeField? {f : Field} {v : Word} {s : State} {d : Definition}
    (h : writeField? s.staging f v = some d) :
    exec (.wrd f.index v) s = .next (answered { s with staging := d } 0) := by
  change execWrd f.index v s = _
  simp only [execWrd, ofIndex?_index, h]
  rfl

/-- WRD stages one field, and every other field reads as before (R153). -/
theorem exec_wrd_stages {f : Field} {v : Word} {s : State} (h : ¬ BadOperand (.wrd f.index v) s) :
    ∃ d, exec (.wrd f.index v) s = .next (answered { s with staging := d } 0) ∧
      ∀ g, readField d g = if g = f then v else readField s.staging g := by
  obtain ⟨d, hd⟩ := exists_writeField? s.staging h
  exact ⟨d, exec_wrd_of_writeField? hd, readField_of_writeField? hd⟩

/-- A run goes on in the state its first command leaves. -/
theorem runAll_cons {i : Instr} {s t : State} (h : exec i s = .next t) (rest : List Instr) :
    runAll (i :: rest) s = runAll rest t := by
  simp only [runAll, h]

/-- The responses of `n` commands that answered `OK` with value 0, on top of earlier ones. -/
def okZeros (n : Nat) (rs : List Response) : List Response := List.replicate n ⟨.ok, 0⟩ ++ rs

/-- One such command before `n` others. -/
theorem okZeros_cons (n : Nat) (rs : List Response) : okZeros n (⟨.ok, 0⟩ :: rs) = okZeros (n + 1) rs := by
  simp [okZeros, List.replicate_succ']

/-- A run of WRDs to different staging registers stages each value and leaves the other registers. -/
theorem runAll_wrd_stages (writes : List (Field × Word)) (s : State) (hnodup : (writes.map Prod.fst).Nodup)
    (hlegal : ∀ x ∈ writes, ¬ BadOperand (.wrd x.1.index x.2) s) :
    ∃ d, runAll (writes.map fun x => .wrd x.1.index x.2) s =
        .next { s with staging := d, responses := okZeros writes.length s.responses } ∧
      (∀ x ∈ writes, readField d x.1 = x.2) ∧
      ∀ g, g ∉ writes.map Prod.fst → readField d g = readField s.staging g := by
  induction writes generalizing s with
  | nil => exact ⟨s.staging, rfl, nofun, fun _ _ => rfl⟩
  | cons x rest ih =>
    obtain ⟨f, v⟩ := x
    obtain ⟨hlegal, hrest⟩ := List.forall_mem_cons.mp hlegal
    obtain ⟨hf, hnodup⟩ := List.nodup_cons.mp hnodup
    obtain ⟨d₁, hexec, hread⟩ := exec_wrd_stages hlegal
    obtain ⟨d, hrun, hin, hout⟩ := ih (answered { s with staging := d₁ } 0) hnodup hrest
    refine ⟨d, ?_, List.forall_mem_cons.mpr ⟨?_, hin⟩, fun g hg => ?_⟩
    · rw [List.map_cons, runAll_cons hexec, hrun, List.length_cons, ← okZeros_cons]
      rfl
    · exact (hout f hf).trans ((hread f).trans (if_pos rfl))
    · obtain ⟨hgf, hg⟩ := not_or.mp (mt List.mem_cons.mpr hg)
      exact (hout g hg).trans ((hread g).trans (if_neg hgf))

/-- WRB inside the buffer (R202). -/
theorem execWrbOn_of_lt {p : Params} {idx : Nat} (hidx : idx < p.bufBytes) (b : Byte) (s : State) :
    execWrbOn p idx b s = .next (answered (s.memWrite idx b) 0) :=
  if_pos (decide_eq_true hidx)

/-- A run of WRBs at rising addresses loads each byte and leaves the rest of the buffer. -/
theorem runAll_loadmsg_loads (bytes : List Byte) (off : Nat) (s : State) (hle : off + bytes.length ≤ 4096) :
    ∃ m, runAll (pseudoLoadmsg off bytes) s =
        .next { s with buf := m, responses := okZeros bytes.length s.responses } ∧
      (∀ i, i < bytes.length → State.memRead { s with buf := m } (off + i) = bytes.getD i 0) ∧
      ∀ a, a < off ∨ off + bytes.length ≤ a → State.memRead { s with buf := m } a = s.memRead a := by
  induction bytes generalizing off s with
  | nil => exact ⟨s.buf, rfl, nofun, fun _ _ => rfl⟩
  | cons b rest ih =>
    rw [List.length_cons] at hle ⊢
    have hoff : off < hardware.bufBytes := by
      rw [bufBytes_hardware]
      omega
    have hexec : exec (.wrb off b) s = .next (answered (s.memWrite off b) 0) := execWrbOn_of_lt hoff b s
    obtain ⟨m, hrun, hin, hout⟩ := ih (off + 1) (answered (s.memWrite off b) 0) (by omega)
    have hkeep (a : Nat) (ha : a < off + 1 ∨ off + 1 + rest.length ≤ a) :
        State.memRead { s with buf := m } a = if a = off then b else s.memRead a :=
      (hout a ha).trans (memRead_memWrite s off a b)
    refine ⟨m, ?_, fun i hi => ?_, fun a ha => ?_⟩
    · rw [pseudoLoadmsg, runAll_cons hexec, hrun, ← okZeros_cons]
      rfl
    · cases i with
      | zero => exact (hkeep off (by omega)).trans (if_pos rfl)
      | succ i =>
        rw [show off + (i + 1) = off + 1 + i by omega]
        exact hin i (by omega)
    · exact (hkeep a (by omega)).trans (if_neg (by omega))

/-- Settles O53: DEFINE is a run of WRDs to eight different registers, LOADMSG a run of WRBs. -/
theorem pseudoCommandsStageAndLoad : Obligations.PseudoCommandsStageAndLoad := by
  refine ⟨fun bits poly init refin refout xorout check strat s hmin hmax hrefin hrefout hstrat => ?_,
    fun off bytes s hle => ?_⟩
  · obtain ⟨d, hrun, hread, -⟩ := runAll_wrd_stages
      [(.bits, bits), (.poly, poly), (.init, init), (.refIn, refin), (.refOut, refout), (.xorOut, xorout), (.check, check),
        (.strat, strat)] s (by simp) (by simp [BadOperandOn, Field.index]; omega)
    simp only [List.forall_mem_cons] at hread
    obtain ⟨hbits, hpoly, hinit, hri, hro, hxor, hcheck, hst, -⟩ := hread
    exact ⟨_, hrun, hbits, hpoly, hinit, hri, hro, hxor, hcheck, hst, rfl⟩
  · obtain ⟨m, hrun, hin, hout⟩ := runAll_loadmsg_loads bytes off s hle
    exact ⟨_, hrun, hin, hout, rfl⟩

end Sys2Proof.Machine
end

section
/-! SUPPORT. The bit-reflection unit bit by bit (spec/40_reflect.md R100), its laws (R101), and REFL (R102). -/

namespace Sys2Proof.Machine

/-! ### The loop -/

/-- The bit shifted in is the low bit of `v`. -/
theorem getLsbD_shiftIn_zero (r v : Word) : ((r <<< 1) ||| (v &&& 1)).getLsbD 0 = v.getLsbD 0 := by
  simp

/-- The bits shifted in before move up by one. -/
theorem getLsbD_shiftIn_succ (r v : Word) {k : Nat} (hk : k + 1 < 64) :
    ((r <<< 1) ||| (v &&& 1)).getLsbD (k + 1) = r.getLsbD k := by
  simp [hk, BitVec.getLsbD_eq_getElem (Nat.lt_of_succ_lt hk)]

/-- After `n` rounds the low `n` bits are those of `v` in reverse, and the old accumulator stands above them. -/
theorem getLsbD_reflectLoop (n : Nat) (r v : Word) {j : Nat} (hj : j < 64) :
    (reflectLoop n r v).getLsbD j = if j < n then v.getLsbD (n - 1 - j) else r.getLsbD (j - n) := by
  induction n generalizing r v with
  | zero => rfl
  | succ n ih =>
    rw [reflectLoop, ih]
    obtain hlt | rfl | hgt := Nat.lt_trichotomy j n
    · rw [if_pos hlt, if_pos (by omega), BitVec.getLsbD_ushiftRight]
      congr 1
      omega
    · rw [if_neg (Nat.lt_irrefl j), if_pos (Nat.lt_succ_self j), Nat.sub_self, getLsbD_shiftIn_zero]
      congr 1
      omega
    · obtain ⟨k, rfl⟩ : ∃ k, j = n + 1 + k := Nat.exists_eq_add_of_le hgt
      rw [if_neg (by omega), if_neg (by omega), show n + 1 + k - n = k + 1 by omega,
        getLsbD_shiftIn_succ r v (by omega), Nat.add_sub_cancel_left]

/-! ### The unit -/

section
variable {n : Nat} (hn : n ≤ 64) (v : Word)
include hn

/-- R100: bit `j` of the reflection, for every `j`. -/
theorem getLsbD_reflect (j : Nat) : (reflect v n).getLsbD j = (decide (j < n) && v.getLsbD (n - 1 - j)) := by
  by_cases hj : j < 64
  · rw [reflect, getLsbD_reflectLoop n 0 v hj]
    by_cases hlt : j < n <;> simp [hlt]
  · rw [BitVec.getLsbD_of_ge _ _ (not_lt.mp hj), decide_eq_false (by omega), Bool.false_and]

/-- R100: inside the width bit `i` goes to its mirror position. -/
theorem getLsbD_reflect_mirror {i : Nat} (hi : i < n) : (reflect v n).getLsbD (n - 1 - i) = v.getLsbD i := by
  rw [getLsbD_reflect hn, decide_eq_true (by omega), Bool.true_and, show n - 1 - (n - 1 - i) = i by omega]

/-- R100: above the width there are zeros. -/
theorem getLsbD_reflect_of_ge {j : Nat} (hj : n ≤ j) : (reflect v n).getLsbD j = false := by
  rw [getLsbD_reflect hn, decide_eq_false (not_lt.mpr hj), Bool.false_and]

/-- Masking with `2 ^ n - 1` keeps the bits below `n`. -/
theorem getLsbD_and_lowMask (j : Nat) :
    (v &&& BitVec.ofNat 64 (2 ^ n - 1)).getLsbD j = (decide (j < n) && v.getLsbD j) := by
  have hmask : (BitVec.ofNat 64 (2 ^ n - 1)).getLsbD j = decide (j < n) := by
    rw [BitVec.getLsbD_ofNat, Nat.testBit_two_pow_sub_one, ← Bool.decide_and]
    exact decide_eq_decide.mpr (by omega)
  rw [BitVec.getLsbD_and, hmask, Bool.and_comm]

/-- R101 (b): reflection is an involution on `n`-bit values. -/
theorem reflect_reflect : reflect (reflect v n) n = v &&& BitVec.ofNat 64 (2 ^ n - 1) := by
  refine BitVec.eq_of_getLsbD_eq fun j _ => ?_
  rw [getLsbD_reflect hn, getLsbD_and_lowMask hn]
  by_cases hlt : j < n
  · rw [getLsbD_reflect_mirror hn v hlt]
  · simp only [hlt, decide_false, Bool.false_and]

/-- R101 (c): the bits from `n` up do not count. -/
theorem reflect_and_lowMask : reflect (v &&& BitVec.ofNat 64 (2 ^ n - 1)) n = reflect v n := by
  refine BitVec.eq_of_getLsbD_eq fun j _ => ?_
  rw [getLsbD_reflect hn, getLsbD_reflect hn, getLsbD_and_lowMask hn]
  by_cases hlt : j < n
  · rw [decide_eq_true (show n - 1 - j < n by omega), Bool.true_and]
  · simp only [hlt, decide_false, Bool.false_and]

/-- R101 (d): reflection is linear over exclusive or. -/
theorem reflect_xor (x y : Word) : reflect (x ^^^ y) n = reflect x n ^^^ reflect y n := by
  refine BitVec.eq_of_getLsbD_eq fun j _ => ?_
  rw [BitVec.getLsbD_xor, getLsbD_reflect hn, getLsbD_reflect hn, getLsbD_reflect hn, BitVec.getLsbD_xor,
    Bool.and_xor_distrib_left]

/-- R101 (f): the top bit of the reflection is the bottom bit. -/
theorem getLsbD_reflect_top (hpos : 1 ≤ n) : (reflect v n).getLsbD (n - 1) = v.getLsbD 0 :=
  getLsbD_reflect_mirror hn v hpos

/-- R101 (f): the bottom bit of the reflection is the top bit. -/
theorem getLsbD_reflect_zero (hpos : 1 ≤ n) : (reflect v n).getLsbD 0 = v.getLsbD (n - 1) := by
  rw [getLsbD_reflect hn, decide_eq_true (show 0 < n from hpos), Bool.true_and, Nat.sub_zero]

end

/-- R101 (e): one round moves the low bit into an empty accumulator. -/
theorem reflect_one (v : Word) : reflect v 1 = v &&& 1 := by
  change (0#64 <<< 1) ||| (v &&& 1) = v &&& 1
  rw [BitVec.zero_shiftLeft, BitVec.zero_or]

/-! ### The command -/

/-- REFL of a width in the contract (R102). -/
theorem execRefl_of_le {n : Nat} (hn : n ≤ 64) (v : Word) (s : State) :
    execRefl n v s = .next (answered s (reflect v n)) :=
  if_neg (not_lt.mpr hn)

/-- REFL of a width above the contract (R102). -/
theorem execRefl_of_gt {n : Nat} (hn : 64 < n) (v : Word) (s : State) : execRefl n v s = .next (failed s .eArg) :=
  (if_pos hn).trans (raise_eq_failed s nofun)

/-- Settles O23: `getLsbD_reflect` at a mirror position and above the width. -/
theorem reflectMovesBitsAsTheContractSays : Obligations.ReflectMovesBitsAsTheContractSays :=
  fun v _ hn => ⟨fun _ hi => getLsbD_reflect_mirror hn v hi, fun _ hj => getLsbD_reflect_of_ge hn v hj⟩

/-- Settles O24: the six laws, of which (a) bounds the loop and the others compare bits. -/
theorem reflectLaws : Obligations.ReflectLaws :=
  fun v x y n hn => ⟨toNat_reflect_lt v n, reflect_reflect hn v, (reflect_and_lowMask hn v).symm, reflect_xor hn x y,
    reflect_one v, fun hpos => ⟨getLsbD_reflect_top hn v hpos, getLsbD_reflect_zero hn v hpos⟩⟩

/-- Settles O25: up to 64 bits REFL answers the unit's value, whose bits are those of R100; above it fails. -/
theorem reflAnswersTheReflection : Obligations.ReflAnswersTheReflection :=
  fun n v s => ⟨fun hn => ⟨reflect v n, execRefl_of_le hn v s, getLsbD_reflect hn v⟩, fun hn => execRefl_of_gt hn v s⟩

end Sys2Proof.Machine
end

section
/-! SUPPORT. The bit-serial divider (spec/41_bitserial_divider.md R110 to R117): its step is linear over exclusive or, the
reflected step is the mirror image of the normal one, and a register fed with the bits that leave it only shifts. Stated for
a byte and a nibble alike, through the number `k` of bits fed. -/

namespace Sys2Proof.Machine

/-! ### The registers of the engine -/

/-- A value that fits the width has no bit from the width up. -/
theorem getLsbD_of_toNat_lt {n : Nat} {c : Word} (hc : c.toNat < 2 ^ n) {j : Nat} (hj : n ≤ j) : c.getLsbD j = false :=
  Nat.testBit_lt_two_pow (hc.trans_le (Nat.pow_le_pow_right Nat.two_pos hj))

namespace Engine.Masked

variable {e : Engine} (h : e.Masked)
include h

/-- `E_MASK` is the low mask of the width, the mask of the laws of reflection (R101). -/
theorem mask_eq_lowMask : e.mask = BitVec.ofNat 64 (2 ^ e.width - 1) := by
  rw [h.mask_eq, ← toNat_maskOf h.width_pos h.width_le, BitVec.ofNat_toNat, BitVec.setWidth_eq]

theorem getLsbD_and_mask (c : Word) (j : Nat) : (c &&& e.mask).getLsbD j = (decide (j < e.width) && c.getLsbD j) := by
  rw [h.mask_eq_lowMask, getLsbD_and_lowMask h.width_le]

theorem and_mask_eq_self {c : Word} (hc : c.toNat < 2 ^ e.width) : c &&& e.mask = c := by
  refine BitVec.eq_of_getLsbD_eq fun j _ => ?_
  rw [h.getLsbD_and_mask]
  by_cases hj : j < e.width
  · rw [decide_eq_true hj, Bool.true_and]
  · rw [decide_eq_false hj, Bool.false_and, getLsbD_of_toNat_lt hc (not_lt.mp hj)]

/-- Reflecting twice gives back a value that fits the width (R101 (b)). -/
theorem reflect_reflect_of_lt {c : Word} (hc : c.toNat < 2 ^ e.width) : reflect (reflect c e.width) e.width = c := by
  rw [reflect_reflect h.width_le, ← h.mask_eq_lowMask, h.and_mask_eq_self hc]

end Engine.Masked

/-- `E_RPOLY` is the reflected polynomial (R24). -/
theorem Engine.Wf.rPoly_eq {e : Engine} (h : e.Wf) : e.rPoly = reflect e.poly e.width := by
  rw [← h.constructed]
  rfl

/-! ### Feeding bits -/

section
variable {k : Nat} (e : Engine) (c : Word)

/-- The divider fed with the bits of `x` in the mode of the engine: the common form of the raw byte processor (R115) and
the byte update (R117). -/
def feed (x : BitVec k) : Word := if e.refIn then feedR e c x else feedN e c x

theorem feed_of_reflected (href : e.refIn = true) (x : BitVec k) : feed e c x = feedR e c x := if_pos href

theorem feed_of_normal (href : e.refIn = false) (x : BitVec k) : feed e c x = feedN e c x := by
  rw [feed, href, if_neg Bool.false_ne_true]

theorem raw_eq_feed (b : Byte) : raw e b = feed e 0 b := rfl

/-- A byte is fed least significant bit first in reflected mode and most significant bit first in normal mode (R113,
R114). -/
theorem feed_byte (b : Byte) : feed e c b =
    if e.refIn then [0, 1, 2, 3, 4, 5, 6, 7].foldl (fun c i => stepR e c (b.getLsbD i)) c
    else [7, 6, 5, 4, 3, 2, 1, 0].foldl (fun c i => stepN e c (b.getLsbD i)) c := rfl

theorem lsbFirst_succ (x : BitVec (k + 1)) : lsbFirst x = lsbFirst (x.setWidth k) ++ [x.getLsbD k] := by
  simp only [lsbFirst, List.range_succ, List.map_append, List.map_singleton]
  congr 1
  exact List.map_congr_left fun i hi => by
    rw [BitVec.getLsbD_setWidth, decide_eq_true (List.mem_range.mp hi), Bool.true_and]

/-- The normal divider takes the most significant bit first. -/
theorem feedN_succ (x : BitVec (k + 1)) : feedN e c x = feedN e (stepN e c (x.getLsbD k)) (x.setWidth k) := by
  simp only [feedN, msbFirst, lsbFirst_succ, List.reverse_append, List.reverse_singleton, List.singleton_append,
    List.foldl_cons]

/-- The reflected divider takes the most significant bit last. -/
theorem feedR_succ (x : BitVec (k + 1)) : feedR e c x = stepR e (feedR e c (x.setWidth k)) (x.getLsbD k) := by
  simp only [feedR, lsbFirst_succ, List.foldl_append, List.foldl_cons, List.foldl_nil]

end

/-! ### Linearity -/

section
variable (e : Engine)

/-- Masking is linear. -/
theorem xor_and_mask (x y m : Word) : (x ^^^ y) &&& m = (x &&& m) ^^^ (y &&& m) := by
  ext i hi
  simp only [BitVec.getElem_and, BitVec.getElem_xor, Bool.and_xor_distrib_right]

/-- Exclusive or of two registers after a conditional feedback of the same polynomial `p`: the conditions add up. -/
theorem ite_xor_ite (a b : Bool) (x y p : Word) :
    (if a ^^ b then (x ^^^ y) ^^^ p else x ^^^ y) = (if a then x ^^^ p else x) ^^^ (if b then y ^^^ p else y) := by
  cases a <;> cases b
  · rfl
  · exact BitVec.xor_assoc x y p
  · calc (x ^^^ y) ^^^ p = (x ^^^ p) ^^^ y := by ac_rfl
      _ = _ := rfl
  · calc x ^^^ y = (x ^^^ y) ^^^ (p ^^^ p) := by rw [BitVec.xor_self, BitVec.xor_zero]
      _ = (x ^^^ p) ^^^ (y ^^^ p) := by ac_rfl

theorem getLsbD_xor_xor (c₁ c₂ : Word) (j : Nat) (d₁ d₂ : Bool) :
    ((c₁ ^^^ c₂).getLsbD j ^^ (d₁ ^^ d₂)) = ((c₁.getLsbD j ^^ d₁) ^^ (c₂.getLsbD j ^^ d₂)) := by
  simp only [BitVec.getLsbD_xor, Bool.xor_assoc, Bool.xor_left_comm]

theorem stepN_xor (c₁ c₂ : Word) (d₁ d₂ : Bool) : stepN e (c₁ ^^^ c₂) (d₁ ^^ d₂) = stepN e c₁ d₁ ^^^ stepN e c₂ d₂ := by
  have hshift : ((c₁ ^^^ c₂) <<< 1) &&& e.mask = ((c₁ <<< 1) &&& e.mask) ^^^ ((c₂ <<< 1) &&& e.mask) := by
    rw [BitVec.shiftLeft_xor_distrib, xor_and_mask]
  simp only [stepN, getLsbD_xor_xor, hshift]
  exact ite_xor_ite ..

theorem stepR_xor (c₁ c₂ : Word) (d₁ d₂ : Bool) : stepR e (c₁ ^^^ c₂) (d₁ ^^ d₂) = stepR e c₁ d₁ ^^^ stepR e c₂ d₂ := by
  simp only [stepR, getLsbD_xor_xor, BitVec.ushiftRight_xor_distrib]
  exact ite_xor_ite ..

theorem feedN_xor {k : Nat} (c₁ c₂ : Word) (x₁ x₂ : BitVec k) :
    feedN e (c₁ ^^^ c₂) (x₁ ^^^ x₂) = feedN e c₁ x₁ ^^^ feedN e c₂ x₂ := by
  induction k generalizing c₁ c₂ with
  | zero => rfl
  | succ k ih => simp only [feedN_succ, BitVec.getLsbD_xor, BitVec.setWidth_xor, stepN_xor, ih]

theorem feedR_xor {k : Nat} (c₁ c₂ : Word) (x₁ x₂ : BitVec k) :
    feedR e (c₁ ^^^ c₂) (x₁ ^^^ x₂) = feedR e c₁ x₁ ^^^ feedR e c₂ x₂ := by
  induction k with
  | zero => rfl
  | succ k ih => simp only [feedR_succ, BitVec.getLsbD_xor, BitVec.setWidth_xor, stepR_xor, ih]

/-- Feeding is linear in the register and the bits together (R121). -/
theorem feed_xor {k : Nat} (c₁ c₂ : Word) (x₁ x₂ : BitVec k) :
    feed e (c₁ ^^^ c₂) (x₁ ^^^ x₂) = feed e c₁ x₁ ^^^ feed e c₂ x₂ := by
  unfold feed
  split
  · exact feedR_xor e c₁ c₂ x₁ x₂
  · exact feedN_xor e c₁ c₂ x₁ x₂

/-- Zero bits leave a zero register at zero. -/
theorem feed_zero (k : Nat) : feed e 0 (0 : BitVec k) = 0 := by
  have hsum := feed_xor e 0 0 (0 : BitVec k) 0
  rwa [BitVec.xor_self, BitVec.xor_self, BitVec.xor_self] at hsum

theorem raw_xor (x y : Byte) : raw e (x ^^^ y) = raw e x ^^^ raw e y := feed_xor e 0 0 x y

/-- A byte is the exclusive or of its two nibbles in their places. -/
theorem raw_append (hi lo : Nibble) : raw e (hi ++ lo) = raw e (hi ++ (0 : Nibble)) ^^^ raw e ((0 : Nibble) ++ lo) := by
  rw [← raw_xor, BitVec.xor_append]
  exact congrArg (raw e) (congrArg₂ (· ++ ·) BitVec.xor_zero BitVec.zero_xor).symm

end

/-! ### Outgoing bits, and the byte update -/

/-- A bit equal to the one that leaves the register gives no feedback: the normal step only shifts. -/
theorem stepN_outgoing (e : Engine) (c : Word) : stepN e c (c.getLsbD (e.width - 1)) = (c <<< 1) &&& e.mask := by
  simp only [stepN, Bool.xor_self, Bool.false_eq_true, if_false]

theorem stepR_outgoing (e : Engine) (c : Word) : stepR e c (c.getLsbD 0) = c >>> 1 := by
  simp only [stepR, Bool.xor_self, Bool.false_eq_true, if_false]

/-- The reflected register fed with its own low bits only shifts. -/
theorem feedR_outgoing (e : Engine) (c : Word) {k : Nat} (x : BitVec k) (hx : ∀ i < k, x.getLsbD i = c.getLsbD i) :
    feedR e c x = c >>> k := by
  induction k with
  | zero => rfl
  | succ k ih =>
    have hlow : feedR e c (x.setWidth k) = c >>> k := ih _ fun i hi => by
      rw [BitVec.getLsbD_setWidth, decide_eq_true hi, Bool.true_and, hx i (Nat.lt_succ_of_lt hi)]
    have hbit : x.getLsbD k = (c >>> k).getLsbD 0 := by
      rw [hx k (Nat.lt_succ_self k), BitVec.getLsbD_ushiftRight, Nat.add_zero]
    rw [feedR_succ, hlow, hbit, stepR_outgoing, BitVec.shiftRight_add]

/-- `x` holds the `k` bits that leave a normal-mode register `c` of `n` bits next, zeros when `k` is more than `n`. -/
def TopBits (n : Nat) (c : Word) {k : Nat} (x : BitVec k) : Prop :=
  ∀ i < k, x.getLsbD i = (decide (k ≤ n + i) && c.getLsbD (n + i - k))

/-- The normal register fed with its own top bits only shifts. -/
theorem Engine.Masked.feedN_outgoing {e : Engine} (h : e.Masked) {c : Word} (hc : c.toNat < 2 ^ e.width) {k : Nat}
    {x : BitVec k} (hx : TopBits e.width c x) : feedN e c x = (c <<< k) &&& e.mask := by
  induction k generalizing c with
  | zero =>
    rw [BitVec.shiftLeft_zero, h.and_mask_eq_self hc]
    rfl
  | succ k ih =>
    have hpos := h.width_pos
    have hbit : x.getLsbD k = c.getLsbD (e.width - 1) := by
      rw [hx k (Nat.lt_succ_self k), decide_eq_true (by omega), Bool.true_and]
      congr 1
      omega
    have hrest : TopBits e.width ((c <<< 1) &&& e.mask) (x.setWidth k) := fun i hi => by
      have hwidth := h.width_le
      rw [BitVec.getLsbD_setWidth, hx i (Nat.lt_succ_of_lt hi), h.getLsbD_and_mask, BitVec.getLsbD_shiftLeft]
      grind
    rw [feedN_succ, hbit, stepN_outgoing, ih (h.toNat_and_mask_lt _) hrest]
    refine BitVec.eq_of_getLsbD_eq fun j hj => ?_
    simp only [h.getLsbD_and_mask, BitVec.getLsbD_shiftLeft]
    grind

/-- The bits that leave a register wider than `k` next are its `k` top bits. -/
theorem topBits_wide {n : Nat} (c : Word) {k : Nat} (hk : k ≤ n) : TopBits n c ((c >>> (n - k)).setWidth k) :=
  fun i hi => by
    rw [BitVec.getLsbD_setWidth, BitVec.getLsbD_ushiftRight, decide_eq_true hi, decide_eq_true (by omega),
      show n - k + i = n + i - k by omega]

/-- The bits that leave a register of at most `k` bits next are all of it, lined up with the top of the `k` bits. -/
theorem topBits_narrow {n : Nat} (c : Word) {k : Nat} (hn : n ≤ k) (hk : k ≤ 64) :
    TopBits n c ((c <<< (k - n)).setWidth k) :=
  fun i hi => by
    rw [BitVec.getLsbD_setWidth, BitVec.getLsbD_shiftLeft, decide_eq_true hi, decide_eq_true (show i < 64 by omega),
      Bool.true_and, Bool.true_and, show i - (k - n) = n + i - k by omega, ← decide_not]
    congr 2
    exact propext (by omega)

/-- Merging the low bits of the register with the bits fed (R116, reflected mode). -/
theorem feedR_merge (e : Engine) (c : Word) {k : Nat} (x : BitVec k) :
    feedR e c x = (c >>> k) ^^^ feedR e 0 (c.setWidth k ^^^ x) := by
  have hlow : feedR e c (c.setWidth k) = c >>> k := feedR_outgoing e c _ fun i hi => by
    rw [BitVec.getLsbD_setWidth, decide_eq_true hi, Bool.true_and]
  calc feedR e c x = feedR e (c ^^^ 0) (c.setWidth k ^^^ (c.setWidth k ^^^ x)) := by simp
    _ = (c >>> k) ^^^ feedR e 0 (c.setWidth k ^^^ x) := by rw [feedR_xor, hlow]

namespace Engine.Masked

variable {e : Engine} (h : e.Masked) {c : Word} {k : Nat}
include h

/-- Merging the top bits `t` of the register with the bits fed (R116, normal mode). -/
theorem feedN_merge (hc : c.toNat < 2 ^ e.width) {t : BitVec k} (ht : TopBits e.width c t) (x : BitVec k) :
    feedN e c x = ((c <<< k) &&& e.mask) ^^^ feedN e 0 (t ^^^ x) :=
  calc feedN e c x = feedN e (c ^^^ 0) (t ^^^ (t ^^^ x)) := by simp
    _ = ((c <<< k) &&& e.mask) ^^^ feedN e 0 (t ^^^ x) := by rw [feedN_xor, h.feedN_outgoing hc ht]

/-- A register of at most `k` bits is empty after a shift by `k`. -/
theorem shiftLeft_and_mask_eq_zero (hn : e.width ≤ k) : (c <<< k) &&& e.mask = 0 := by
  refine BitVec.eq_of_getLsbD_eq fun j _ => ?_
  rw [h.getLsbD_and_mask, BitVec.getLsbD_shiftLeft]
  by_cases hj : j < e.width
  · simp [show j < k by omega]
  · rw [decide_eq_false hj, Bool.false_and]
    exact BitVec.getLsbD_zero.symm

/-- The wide case of R116. -/
theorem feedN_wide (hc : c.toNat < 2 ^ e.width) (hk : k ≤ e.width) (x : BitVec k) :
    feedN e c x = ((c <<< k) &&& e.mask) ^^^ feedN e 0 ((c >>> (e.width - k)).setWidth k ^^^ x) :=
  h.feedN_merge hc (topBits_wide c hk) x

/-- The narrow case of R116. -/
theorem feedN_narrow (hc : c.toNat < 2 ^ e.width) (hn : e.width ≤ k) (hk : k ≤ 64) (x : BitVec k) :
    feedN e c x = feedN e 0 ((c <<< (k - e.width)).setWidth k ^^^ x) := by
  rw [h.feedN_merge hc (topBits_narrow c hn hk), h.shiftLeft_and_mask_eq_zero hn]
  exact BitVec.zero_xor

/-- R117: the merge of R116 feeds the byte to the whole register. -/
theorem updBits_eq_feed (hc : c.toNat < 2 ^ e.width) (b : Byte) : updBits e c b = feed e c b := by
  unfold updBits mergeByte
  by_cases href : e.refIn = true
  · rw [if_pos href, feed_of_reflected e c href, raw_eq_feed, feed_of_reflected e 0 href, ← feedR_merge]
  · have hnormal : e.refIn = false := Bool.eq_false_of_not_eq_true href
    rw [if_neg href, feed_of_normal e c hnormal]
    split
    · next hwide => rw [raw_eq_feed, feed_of_normal e 0 hnormal, ← h.feedN_wide hc hwide.le]
    · next hnarrow =>
      rw [raw_eq_feed, feed_of_normal e 0 hnormal, ← h.feedN_narrow hc (not_lt.mp hnarrow) (by decide)]

end Engine.Masked

/-! ### The mirror image -/

/-- A byte with its bits in reverse order, as R118 and R119 write it. -/
def reverseByte (b : Byte) : Byte := (reflect (b.setWidth 64) 8).setWidth 8

theorem getLsbD_reverseByte (b : Byte) {i : Nat} (hi : i < 8) : (reverseByte b).getLsbD i = b.getLsbD (7 - i) := by
  rw [reverseByte, BitVec.getLsbD_setWidth, getLsbD_reflect (by decide), BitVec.getLsbD_setWidth, decide_eq_true hi,
    decide_eq_true (show 8 - 1 - i < 64 by omega)]
  rfl

/-- The bits of the reversed byte, most significant first, are those of the byte, least significant first. -/
theorem msbFirst_reverseByte (b : Byte) : msbFirst (reverseByte b) = lsbFirst b := by
  refine List.ext_getElem (by simp [msbFirst, lsbFirst]) fun i hi _ => ?_
  have hlt : i < 8 := by simpa [msbFirst, lsbFirst] using hi
  simp only [msbFirst, lsbFirst, List.getElem_reverse, List.getElem_map, List.getElem_range, List.length_map,
    List.length_range]
  rw [getLsbD_reverseByte b (by omega)]
  congr 1
  omega

namespace Engine.Wf

variable {e : Engine} (h : e.Wf)
include h

/-- R111: reflection turns the normal step into the reflected step. -/
theorem stepR_reflect (c : Word) (d : Bool) : stepR e (reflect c e.width) d = reflect (stepN e c d) e.width := by
  have hpos := h.width_pos
  have hle := h.width_le
  have hfb : (reflect c e.width).getLsbD 0 = c.getLsbD (e.width - 1) := getLsbD_reflect_zero hle c hpos
  have hshift : reflect c e.width >>> 1 = reflect ((c <<< 1) &&& e.mask) e.width := by
    refine BitVec.eq_of_getLsbD_eq fun j hj => ?_
    simp only [BitVec.getLsbD_ushiftRight, getLsbD_reflect hle, h.masked.getLsbD_and_mask, BitVec.getLsbD_shiftLeft]
    grind
  simp only [stepR, stepN, hfb, hshift, h.rPoly_eq]
  split
  · exact (reflect_xor hle _ _).symm
  · rfl

/-- Reflection turns the normal divider into the reflected divider on the bits in reverse order. -/
theorem feedR_reflect (c : Word) (b : Byte) :
    feedR e (reflect c e.width) b = reflect (feedN e c (reverseByte b)) e.width := by
  rw [feedR, feedN, msbFirst_reverseByte]
  exact List.foldl_hom (reflect · e.width) h.stepR_reflect

/-- The same read from the reflected side. -/
theorem reflect_feedR {c : Word} (hc : c.toNat < 2 ^ e.width) (b : Byte) :
    reflect (feedR e c b) e.width = feedN e (reflect c e.width) (reverseByte b) := by
  conv_lhs => rw [← h.masked.reflect_reflect_of_lt hc, h.feedR_reflect]
  exact h.masked.reflect_reflect_of_lt (h.masked.feedN_lt (toNat_reflect_lt _ _) _)

end Engine.Wf

/-! ### Masking once, and the preloaded form -/

/-- The normal step of the source: the register is not masked (R112). -/
def stepUnmasked (e : Engine) (c : Word) (d : Bool) : Word :=
  if (c.getLsbD (e.width - 1)) ^^ d then (c <<< 1) ^^^ e.poly else c <<< 1

/-- R112: a stray bit is never tested and never comes back, so masking before the step or after it is the same. -/
theorem Engine.Masked.stepN_and_mask {e : Engine} (h : e.Masked) (c : Word) (d : Bool) :
    stepN e (c &&& e.mask) d = stepUnmasked e c d &&& e.mask := by
  have hpos := h.width_pos
  have hfb : (c &&& e.mask).getLsbD (e.width - 1) = c.getLsbD (e.width - 1) := by
    rw [h.getLsbD_and_mask, decide_eq_true (by omega), Bool.true_and]
  have hshift : ((c &&& e.mask) <<< 1) &&& e.mask = (c <<< 1) &&& e.mask := by
    refine BitVec.eq_of_getLsbD_eq fun j hj => ?_
    simp only [h.getLsbD_and_mask, BitVec.getLsbD_shiftLeft]
    grind
  simp only [stepN, stepUnmasked, hfb, hshift]
  split
  · conv_lhs => rw [← h.and_mask_eq_self h.poly_lt]
    exact (xor_and_mask _ _ _).symm
  · rfl

/-- R114: preloading the bits fed is the same as feeding them, for fed to themselves they only shift out. -/
theorem feedR_preload (e : Engine) (c : Word) (b : Byte) : feedR e c b = feedR e (c ^^^ b.setWidth 64) (0 : Byte) := by
  have hout : feedR e (b.setWidth 64) b = 0 := by
    rw [feedR_outgoing e (b.setWidth 64) b fun i hi => by
      rw [BitVec.getLsbD_setWidth, decide_eq_true (show i < 64 by omega), Bool.true_and]]
    refine BitVec.eq_of_getLsbD_eq fun j _ => ?_
    rw [BitVec.getLsbD_ushiftRight, BitVec.getLsbD_setWidth, BitVec.getLsbD_of_ge b (8 + j) (by omega), Bool.and_false]
    exact BitVec.getLsbD_zero.symm
  calc feedR e c b = feedR e c b ^^^ feedR e (b.setWidth 64) b := by rw [hout]; exact BitVec.xor_zero.symm
    _ = feedR e (c ^^^ b.setWidth 64) (b ^^^ b) := (feedR_xor e c _ b b).symm
    _ = feedR e (c ^^^ b.setWidth 64) (0 : Byte) := by rw [BitVec.xor_self]; rfl

/-- The reflected step with input bit 0 (R114). -/
def shiftR (e : Engine) (c : Word) : Word := if c.getLsbD 0 then (c >>> 1) ^^^ e.rPoly else c >>> 1

theorem stepR_false (e : Engine) (c : Word) : stepR e c false = shiftR e c := by
  simp only [stepR, shiftR, Bool.xor_false]

/-- Eight zero bits are eight steps that only test the register. -/
theorem feedR_zero_byte (e : Engine) (c : Word) : feedR e c (0 : Byte) = (shiftR e)^[8] c := by
  rw [← show (stepR e · false) = shiftR e from funext (stepR_false e)]
  rfl

theorem rawR_preload (e : Engine) (b : Byte) : rawR e b = (shiftR e)^[8] (b.setWidth 64) := by
  rw [rawR, feedR_preload, feedR_zero_byte]
  exact congrArg _ BitVec.zero_xor

/-- Zero bits leave a zero reflected register at zero. -/
theorem feedR_zero (e : Engine) (k : Nat) : feedR e 0 (0 : BitVec k) = 0 := by
  rw [feedR_outgoing e 0 0 fun _ _ => BitVec.getLsbD_zero.trans BitVec.getLsbD_zero.symm]
  exact BitVec.zero_ushiftRight

/-- The last bit fed of `0x80` is its only one (R114). -/
theorem rawR_0x80 (e : Engine) : rawR e 0x80 = e.rPoly :=
  calc rawR e 0x80 = stepR e (feedR e 0 (0 : BitVec 7)) true := feedR_succ e 0 (0x80 : Byte)
    _ = stepR e 0 true := by rw [feedR_zero]
    _ = e.rPoly := BitVec.zero_xor

/-! ### RAWB -/

theorem execRawb_of_none {s : State} (he : s.engine = none) (b : Byte) : execRawb b s = .next (failed s .eState) := by
  simp only [execRawb, he]
  exact raise_eq_failed s nofun

/-! ### The statements -/

/-- Settles O26: `stepR_reflect`, which does not need the bound on the register. -/
theorem reflectedStepMirrorsNormalStep : Obligations.ReflectedStepMirrorsNormalStep :=
  fun _ c d h _ => h.stepR_reflect c d

/-- Settles O27: masking maps a run of the unmasked steps to a run of the masked ones, step by step. -/
theorem maskingOnceAtTheEndIsTheSame : Obligations.MaskingOnceAtTheEndIsTheSame := by
  intro e b h
  have hzero : (0 : Word) &&& e.mask = 0 := BitVec.zero_and
  calc rawN e b = (msbFirst b).foldl (stepN e) (0 &&& e.mask) := by rw [hzero]; rfl
    _ = (msbFirst b).foldl (stepUnmasked e) 0 &&& e.mask := List.foldl_hom (· &&& e.mask) h.masked.stepN_and_mask

/-- Settles O28: the preloaded form, and two bytes of which at most the last bit fed is set. -/
theorem preloadedFormIsTheReflectedProcessor : Obligations.PreloadedFormIsTheReflectedProcessor :=
  fun e b _ => ⟨rawR_preload e b, feedR_zero e 8, rawR_0x80 e⟩

/-- Settles O29: the byte update feeds the byte to the whole register, bit by bit. -/
theorem byteUpdateIsEightDividerSteps : Obligations.ByteUpdateIsEightDividerSteps :=
  fun e c b h hc => (h.masked.updBits_eq_feed ((h.masked.le_mask_iff c).mp hc) b).trans (feed_byte e c b)

/-- Settles O31: the mirror image of the divider, from the zero register, which is its own reflection. -/
theorem reflectedModeIsNormalModeOnReversedBytes : Obligations.ReflectedModeIsNormalModeOnReversedBytes := by
  intro e b h
  have hzero : reflect 0 e.width = 0 := by
    refine BitVec.eq_of_getLsbD_eq fun j _ => ?_
    rw [getLsbD_reflect h.width_le]
    simp
  have hmirror := h.feedR_reflect 0 b
  rwa [hzero] at hmirror

/-- Settles O32: feeding is linear, and the raw byte and the byte update feed a byte. -/
theorem dividerIsLinear : Obligations.DividerIsLinear := by
  intro e h
  have hupd : ∀ c b, c.toNat < 2 ^ e.width → updBits e c b = feed e c b := fun c b hc => h.masked.updBits_eq_feed hc b
  refine ⟨raw_xor e, feed_zero e 8, fun c₁ c₂ b₁ b₂ hc₁ hc₂ => ?_, raw_append e⟩
  rw [h.masked.le_mask_iff] at hc₁ hc₂
  rw [hupd _ _ (toNat_xor_lt hc₁ hc₂), hupd _ _ hc₁, hupd _ _ hc₂, feed_xor]

/-- Settles O33: RAWB answers the raw byte, and the strategy has no part in it. -/
theorem rawbAnswersTheRawByte : Obligations.RawbAnswersTheRawByte :=
  fun b _ => ⟨fun _ he => execRawb_of_some he b, fun he => execRawb_of_none he b⟩

end Sys2Proof.Machine
end

section
/-! SUPPORT. The divider over GF(2) (spec/41_bitserial_divider.md R118): values read as polynomials, and what it feeds as
remainders modulo `x^bits + poly(x)`. -/

namespace Sys2Proof.Machine

open Polynomial

/-! ### Values as polynomials -/

/-- A value as the polynomial over GF(2) with bit `i` the coefficient of `x^i` (R118). -/
noncomputable def bitPoly {k : Nat} (v : BitVec k) : (ZMod 2)[X] :=
  ∑ i ∈ Finset.range k, if v.getLsbD i then X ^ i else 0

theorem coeff_ite_X_pow (b : Bool) (i j : Nat) :
    (if b then (X : (ZMod 2)[X]) ^ i else 0).coeff j = if j = i then (if b then 1 else 0) else 0 := by
  cases b <;> simp [coeff_X_pow]

/-- Bit `j` is the coefficient of `x^j`. -/
theorem coeff_bitPoly {k : Nat} (v : BitVec k) (j : Nat) : (bitPoly v).coeff j = if v.getLsbD j then 1 else 0 := by
  simp only [bitPoly, finsetSum_coeff, coeff_ite_X_pow, Finset.sum_ite_eq, Finset.mem_range]
  split
  · rfl
  · next hj => rw [BitVec.getLsbD_of_ge v j (not_lt.mp hj), if_neg Bool.false_ne_true]

theorem bitPoly_zero (k : Nat) : bitPoly (0 : BitVec k) = 0 := by
  ext j
  rw [coeff_bitPoly, show (0 : BitVec k).getLsbD j = false from BitVec.getLsbD_zero, if_neg Bool.false_ne_true, coeff_zero]

/-- Exclusive or is the sum over GF(2). -/
theorem bitPoly_xor {k : Nat} (v w : BitVec k) : bitPoly (v ^^^ w) = bitPoly v + bitPoly w := by
  ext j
  rw [coeff_add, coeff_bitPoly, coeff_bitPoly, coeff_bitPoly, BitVec.getLsbD_xor]
  cases v.getLsbD j <;> cases w.getLsbD j <;> decide

/-- More container bits do not change the polynomial. -/
theorem bitPoly_setWidth {k m : Nat} (hkm : k ≤ m) (v : BitVec k) : bitPoly (v.setWidth m) = bitPoly v := by
  ext j
  rw [coeff_bitPoly, coeff_bitPoly, BitVec.getLsbD_setWidth]
  by_cases hj : j < m
  · rw [decide_eq_true hj, Bool.true_and]
  · rw [decide_eq_false hj, Bool.false_and, BitVec.getLsbD_of_ge v j (by omega)]

/-- The bits fed, split into the first, the most significant one, and the rest. -/
theorem bitPoly_succ {k : Nat} (x : BitVec (k + 1)) :
    bitPoly x = (if x.getLsbD k then X ^ k else 0) + bitPoly (x.setWidth k) := by
  rw [bitPoly, Finset.sum_range_succ, add_comm, bitPoly]
  congr 1
  refine Finset.sum_congr rfl fun i hi => ?_
  rw [BitVec.getLsbD_setWidth, decide_eq_true (Finset.mem_range.mp hi), Bool.true_and]

/-- A conditional term under an exclusive or: over GF(2) the conditions add up. -/
theorem ite_xor_eq_add (a b : Bool) (q : (ZMod 2)[X]) :
    (if a ^^ b then q else 0) = (if a then q else 0) + if b then q else 0 := by
  cases a <;> cases b
  · exact (add_zero 0).symm
  · exact (zero_add q).symm
  · exact (add_zero q).symm
  · exact (CharTwo.add_self_eq_zero q).symm

/-- A factor may be reduced before the product is. -/
theorem modByMonic_mul_add {q : (ZMod 2)[X]} (hq : q.Monic) (a b r : (ZMod 2)[X]) :
    (a %ₘ q * b + r) %ₘ q = (a * b + r) %ₘ q := by
  refine modByMonic_eq_of_dvd_sub hq ?_
  rw [add_sub_add_right_eq_sub, ← sub_mul]
  exact (dvd_modByMonic_sub a q).mul_right b

/-- A value that fits `n` bits has degree below `n`. -/
theorem degree_bitPoly_lt {n : Nat} {c : Word} (hc : c.toNat < 2 ^ n) : (bitPoly c).degree < n :=
  (degree_lt_iff_coeff_zero _ _).mpr fun j hj => by
    rw [coeff_bitPoly, getLsbD_of_toNat_lt hc hj, if_neg Bool.false_ne_true]

/-! ### The divisor and the step -/

/-- The divisor `P(x) = x^bits + poly(x)` (R118). -/
noncomputable def divisor (e : Engine) : (ZMod 2)[X] := X ^ e.width + bitPoly e.poly

namespace Engine.Masked

variable {e : Engine} (h : e.Masked)
include h

theorem divisor_monic : (divisor e).Monic := monic_X_pow_add (degree_bitPoly_lt h.poly_lt)

theorem degree_divisor : (divisor e).degree = e.width := by
  rw [divisor, degree_add_eq_left_of_degree_lt, degree_X_pow]
  rw [degree_X_pow]
  exact degree_bitPoly_lt h.poly_lt

/-- A shift inside the register takes the top bit out of the product with `x`. -/
theorem bitPoly_mul_X {c : Word} (hc : c.toNat < 2 ^ e.width) : bitPoly c * X =
    bitPoly ((c <<< 1) &&& e.mask) + if c.getLsbD (e.width - 1) then X ^ e.width else 0 := by
  have hpos := h.width_pos
  have hle := h.width_le
  ext j
  rw [coeff_add, coeff_bitPoly, coeff_ite_X_pow, h.getLsbD_and_mask, BitVec.getLsbD_shiftLeft]
  cases j with
  | zero =>
    rw [mul_coeff_zero, coeff_X_zero, mul_zero]
    grind
  | succ j =>
    rw [coeff_mul_X, coeff_bitPoly]
    have hout : e.width ≤ j → c.getLsbD j = false := getLsbD_of_toNat_lt hc
    grind

/-- R118: the normal step is the remainder of `c(x) * x + d * x^bits`; the feedback bit is the quotient. -/
theorem bitPoly_stepN {c : Word} (hc : c.toNat < 2 ^ e.width) (d : Bool) :
    bitPoly (stepN e c d) = (bitPoly c * X + if d then X ^ e.width else 0) %ₘ divisor e := by
  have hdeg : (bitPoly (stepN e c d)).degree < (divisor e).degree := by
    rw [h.degree_divisor]
    exact degree_bitPoly_lt (h.stepN_lt c d)
  have hdiv : bitPoly (stepN e c d) + divisor e * (if c.getLsbD (e.width - 1) ^^ d then 1 else 0) =
      bitPoly c * X + if d then X ^ e.width else 0 :=
    calc bitPoly (stepN e c d) + divisor e * (if c.getLsbD (e.width - 1) ^^ d then 1 else 0)
      _ = bitPoly ((c <<< 1) &&& e.mask) + if c.getLsbD (e.width - 1) ^^ d then X ^ e.width else 0 := by
        rw [stepN, divisor]
        split
        · rw [bitPoly_xor, mul_one, add_comm (X ^ e.width), ← add_assoc, add_assoc (bitPoly _) (bitPoly e.poly),
            CharTwo.add_self_eq_zero, add_zero]
        · rw [mul_zero]
      _ = bitPoly c * X + if d then X ^ e.width else 0 := by
        rw [ite_xor_eq_add, ← add_assoc, ← h.bitPoly_mul_X hc]
  exact (div_modByMonic_unique _ _ h.divisor_monic ⟨hdiv, hdeg⟩).2.symm

/-- R118 for any number of bits: feeding the `k` bits of `d` to the register `c` gives the remainder of
`c(x) * x^k + d(x) * x^bits`. -/
theorem bitPoly_feedN {k : Nat} {c : Word} (hc : c.toNat < 2 ^ e.width) (d : BitVec k) :
    bitPoly (feedN e c d) = (bitPoly c * X ^ k + bitPoly d * X ^ e.width) %ₘ divisor e := by
  induction k generalizing c with
  | zero =>
    have hd : bitPoly d = 0 := Finset.sum_range_zero _
    rw [hd, zero_mul, add_zero, pow_zero, mul_one]
    refine ((modByMonic_eq_self_iff h.divisor_monic).mpr ?_).symm
    rw [h.degree_divisor]
    exact degree_bitPoly_lt hc
  | succ k ih =>
    rw [feedN_succ, ih (h.stepN_lt _ _), h.bitPoly_stepN hc, modByMonic_mul_add h.divisor_monic, bitPoly_succ d]
    refine congrArg (· %ₘ divisor e) ?_
    split <;> ring

end Engine.Masked

/-- The reversed byte in a 64-bit container, as R118 writes it. -/
theorem setWidth_reverseByte (b : Byte) : (reverseByte b).setWidth 64 = reflect (b.setWidth 64) 8 := by
  have hlt := toNat_reflect_lt (b.setWidth 64) 8
  apply BitVec.eq_of_toNat_eq
  rw [reverseByte, BitVec.toNat_setWidth, BitVec.toNat_setWidth, Nat.mod_eq_of_lt hlt, Nat.mod_eq_of_lt (by omega)]

/-- Settles O30: the normal values by `bitPoly_feedN`, the reflected ones by the mirror image. -/
theorem dividerIsPolynomialRemainder : Obligations.DividerIsPolynomialRemainder := by
  intro e c d b h hc p x P
  rw [h.masked.le_mask_iff] at hc
  have hbyte : p (b.setWidth 64) = bitPoly b := bitPoly_setWidth (by decide) b
  refine ⟨h.masked.bitPoly_stepN hc d, ?_, fun hnormal => ?_, fun href => ?_⟩
  · rw [hbyte]
    have hraw := h.masked.bitPoly_feedN (toNat_zero_lt _) b
    rwa [bitPoly_zero, zero_mul, zero_add] at hraw
  · rw [h.masked.updBits_eq_feed hc, feed_of_normal e c hnormal, hbyte]
    exact h.masked.bitPoly_feedN hc b
  · have hrev : p (reflect (b.setWidth 64) 8) = bitPoly (reverseByte b) := by
      rw [← setWidth_reverseByte]
      exact bitPoly_setWidth (by decide) _
    rw [h.masked.updBits_eq_feed hc, feed_of_reflected e c href, h.reflect_feedR hc, hrev]
    exact h.masked.bitPoly_feedN (toNat_reflect_lt _ _) (reverseByte b)

end Sys2Proof.Machine
end

section
/-! SUPPORT. The lookup tables (spec/42_lut_generators.md R130 to R137): an entry is what the divider makes of its index from
a zero register, so an update through a table feeds its byte or nibble to the whole register, and two nibbles make a byte. -/

namespace Sys2Proof.Machine

/-! ### Feeding a word in two parts -/

section
variable {m k : Nat} (e : Engine) (c : Word) (hi : BitVec m) (lo : BitVec k)

theorem lsbFirst_append : lsbFirst (hi ++ lo) = lsbFirst lo ++ lsbFirst hi := by
  have hrange : List.range (m + k) = List.range k ++ (List.range m).map (k + ·) := by rw [Nat.add_comm, List.range_add]
  rw [lsbFirst, hrange, List.map_append, List.map_map]
  refine congrArg₂ (· ++ ·) (List.map_congr_left fun i hlow => ?_) (List.map_congr_left fun i _ => ?_)
  · rw [BitVec.getLsbD_append, if_pos (List.mem_range.mp hlow)]
  · rw [Function.comp_apply, BitVec.getLsbD_append, if_neg (by omega), Nat.add_sub_cancel_left]

/-- The reflected divider takes the low part first. -/
theorem feedR_append : feedR e c (hi ++ lo) = feedR e (feedR e c lo) hi := by
  simp only [feedR, lsbFirst_append, List.foldl_append]

/-- The normal divider takes the high part first. -/
theorem feedN_append : feedN e c (hi ++ lo) = feedN e (feedN e c hi) lo := by
  simp only [feedN, msbFirst, lsbFirst_append, List.reverse_append, List.foldl_append]

/-- Zero bits leave a zero normal register at zero. -/
theorem feedN_zero : feedN e 0 (0 : BitVec k) = 0 := by
  have hsum := feedN_xor e 0 0 (0 : BitVec k) 0
  rwa [BitVec.xor_self, BitVec.xor_self, BitVec.xor_self] at hsum

/-- Zero low bits come first in reflected mode, and a zero register ignores them (R136 (d)). -/
theorem feedR_append_zero : feedR e 0 (hi ++ (0 : BitVec k)) = feedR e 0 hi := by
  rw [feedR_append, feedR_zero]

/-- Zero high bits come first in normal mode, and a zero register ignores them (R136 (d)). -/
theorem feedN_zero_append : feedN e 0 ((0 : BitVec m) ++ lo) = feedN e 0 lo := by
  rw [feedN_append, feedN_zero]

end

theorem highNibble_append_lowNibble (b : Byte) : highNibble b ++ lowNibble b = b :=
  BitVec.extractLsb'_append_extractLsb' (w := 4) (len := 4)

/-- The index of a byte's entry, from its two nibbles (R136 (e)). -/
theorem toNat_append_nibble (h l : Nibble) : (h ++ l).toNat = 16 * h.toNat + l.toNat := by
  rw [BitVec.toNat_append, ← Nat.shiftLeft_add_eq_or_of_lt l.isLt, Nat.shiftLeft_eq, Nat.mul_comm]

/-- The merge of R116 and R135 for any number of bits: it feeds them to the whole register. -/
theorem Engine.Masked.feed_eq_merge {e : Engine} (h : e.Masked) {c : Word} (hc : c.toNat < 2 ^ e.width) {k : Nat}
    (hk : k ≤ 64) (x : BitVec k) : feed e c x =
      if e.refIn then (c >>> k) ^^^ feed e 0 (c.setWidth k ^^^ x)
      else if k < e.width then ((c <<< k) &&& e.mask) ^^^ feed e 0 ((c >>> (e.width - k)).setWidth k ^^^ x)
      else feed e 0 ((c <<< (k - e.width)).setWidth k ^^^ x) := by
  cases href : e.refIn with
  | true =>
    simp only [feed_of_reflected e _ href]
    exact feedR_merge e c x
  | false =>
    simp only [feed_of_normal e _ href, Bool.false_eq_true, if_false]
    split
    · next hwide => exact h.feedN_wide hc hwide.le x
    · next hnarrow => exact h.feedN_narrow hc (not_lt.mp hnarrow) hk x

/-! ### The entries -/

theorem nib_eq_feed (e : Engine) (n : Nibble) : nib e n = feed e 0 n := rfl

/-- A nibble is fed least significant bit first in reflected mode and most significant bit first in normal mode (R131). -/
theorem feed_nibble (e : Engine) (c : Word) (n : Nibble) : feed e c n =
    if e.refIn then [0, 1, 2, 3].foldl (fun c i => stepR e c (n.getLsbD i)) c
    else [3, 2, 1, 0].foldl (fun c i => stepN e c (n.getLsbD i)) c := rfl

theorem lutEntry_of_getElem? {e : Engine} {k : Nat} {x : Word} (hx : e.lut[k]? = some x) : lutEntry e k = x := by
  rw [lutEntry, hx, Option.getD_some]

namespace Engine.Wf

variable {e : Engine} (h : e.Wf)
include h

/-- The table is the one the engine itself would build, for the generators read no table (R130). -/
theorem lut_eq_buildTable : e.lut = buildTable e := by
  conv_rhs => rw [← h.constructed]
  exact h.lut_eq

/-- The divider does not depend on the strategy the engine is built with. -/
theorem feed_withStrategy (σ : Strategy) (c : Word) {k : Nat} (x : BitVec k) :
    feed (construct (withStrategy e.toDefinition σ)) c x = feed e c x := by
  conv_rhs => rw [← h.constructed]
  rfl

theorem construct_withStrategy (σ : Strategy) : (construct (withStrategy e.toDefinition σ)).Wf :=
  construct_wf h.width_pos h.width_le

theorem lut_length_bits (hs : e.strat = .bits) : e.lut.length = 0 := by
  simp only [h.lut_eq_buildTable, buildTable, hs, List.length_nil]

/-- Entry `k` of the 4-bit table is the raw nibble (R133). -/
theorem lut_getElem?_table4 (hs : e.strat = .table4) {k : Nat} (hk : k < 16) :
    e.lut[k]? = some (nib e (BitVec.ofNat 4 k)) := by
  simp [h.lut_eq_buildTable, buildTable, hs, List.getElem?_range hk, Config.lut4Len]

/-- Entry `k` of the 8-bit table is the raw byte (R132). -/
theorem lut_getElem?_table8 (hs : e.strat = .table8) {k : Nat} (hk : k < 256) :
    e.lut[k]? = some (raw e (BitVec.ofNat 8 k)) := by
  simp [h.lut_eq_buildTable, buildTable, hs, List.getElem?_range hk, Config.lut8Len]

theorem lutEntry_table4 (hs : e.strat = .table4) (n : Nibble) : lutEntry e n.toNat = nib e n := by
  rw [lutEntry_of_getElem? (h.lut_getElem?_table4 hs n.isLt), ofNat_toNat_self]

theorem lutEntry_table8 (hs : e.strat = .table8) (b : Byte) : lutEntry e b.toNat = raw e b := by
  rw [lutEntry_of_getElem? (h.lut_getElem?_table8 hs b.isLt), ofNat_toNat_self]

/-! ### The updates -/

/-- R136 (a): the 8-bit table is the raw byte processor. -/
theorem updT8_eq_updBits (hs : e.strat = .table8) (c : Word) (b : Byte) : updT8 e c b = updBits e c b :=
  congrArg (mergeByte e · c b) (funext (h.lutEntry_table8 hs))

section
variable (hs : e.strat = .table4) {c : Word} (hc : c.toNat < 2 ^ e.width)
include hs hc

/-- R136 (c): a nibble update feeds the nibble to the whole register. -/
theorem n4_eq_feed (n : Nibble) : n4 e c n = feed e c n := by
  simp only [n4, h.lutEntry_table4 hs, nib_eq_feed, h.masked.feed_eq_merge hc (show 4 ≤ 64 by decide)]

/-- R136 (b): the two nibble updates feed the byte, in the order of the mode. -/
theorem updT4_eq_updBits (b : Byte) : updT4 e c b = updBits e c b := by
  rw [h.masked.updBits_eq_feed hc, updT4]
  conv_rhs => rw [← highNibble_append_lowNibble b]
  have hfirst : ∀ n : Nibble, (feed e c n).toNat < 2 ^ e.width := fun n =>
    h.n4_eq_feed hs hc n ▸ h.masked.n4_lt (fun k => h.lutEntry_lt (h.lut_length_table4 hs ▸ k.isLt)) hc n
  rw [h.n4_eq_feed hs hc, h.n4_eq_feed hs hc, h.n4_eq_feed hs (hfirst _), h.n4_eq_feed hs (hfirst _)]
  cases href : e.refIn with
  | true => simp only [feed_of_reflected e _ href, feedR_append, if_true]
  | false => simp only [feed_of_normal e _ href, feedN_append, Bool.false_eq_true, if_false]

end

/-! ### The two tables -/

/-- Every 4-bit table of the engine's parameters holds the engine's raw nibbles. -/
theorem lutEntry_construct_table4 (n : Nibble) :
    lutEntry (construct (withStrategy e.toDefinition .table4)) n.toNat = nib e n :=
  ((h.construct_withStrategy .table4).lutEntry_table4 rfl n).trans (h.feed_withStrategy .table4 0 n)

/-- Every 8-bit table of the engine's parameters holds the engine's raw bytes. -/
theorem lutEntry_construct_table8 (b : Byte) :
    lutEntry (construct (withStrategy e.toDefinition .table8)) b.toNat = raw e b :=
  ((h.construct_withStrategy .table8).lutEntry_table8 rfl b).trans (h.feed_withStrategy .table8 0 b)

end Engine.Wf

/-- R136 (e): a raw byte from its nibbles. The one fed last is a raw nibble; the one fed first is followed by four zeros. -/
theorem raw_append_eq_nib (e : Engine) (hi lo : Nibble) : raw e (hi ++ lo) =
    if e.refIn then nib e hi ^^^ rawR e ((0 : Nibble) ++ lo) else rawN e (hi ++ (0 : Nibble)) ^^^ nib e lo := by
  rw [raw_append]
  cases href : e.refIn with
  | true =>
    simp only [raw_eq_feed, nib_eq_feed, feed_of_reflected e 0 href, feedR_append_zero, rawR, if_true]
  | false =>
    simp only [raw_eq_feed, nib_eq_feed, feed_of_normal e 0 href, feedN_zero_append, rawN, Bool.false_eq_true, if_false]

/-! ### RDLUT -/

theorem execRdlut_of_none {s : State} (he : s.engine = none) (k : Nat) : execRdlut k s = .next (failed s .eState) := by
  simp only [execRdlut, he]
  exact raise_eq_failed s nofun

theorem execRdlut_of_length_le {s : State} {e : Engine} (he : s.engine = some e) {k : Nat} (hk : e.lut.length ≤ k) :
    execRdlut k s = .next (failed s .eArg) :=
  (execRdlut_of_no_entry he (List.getElem?_eq_none hk)).trans (raise_eq_failed s nofun)

/-! ### The statements -/

/-- Settles O34: the entries and the length of the table of each strategy. -/
theorem rdlutAnswersTheTableEntry : Obligations.RdlutAnswersTheTableEntry := by
  refine fun k s => ⟨fun e he h => ⟨fun hs hk => ?_, fun hs hk => ?_, fun hk => ?_⟩, fun he => execRdlut_of_none he k⟩
  · exact execRdlut_of_entry he (h.lut_getElem?_table8 hs hk)
  · exact execRdlut_of_entry he (h.lut_getElem?_table4 hs hk)
  · refine execRdlut_of_length_le he ?_
    cases hs : e.strat with
    | bits => exact (h.lut_length_bits hs).trans_le (Nat.zero_le k)
    | table4 => exact (h.lut_length_table4 hs).trans_le (by rwa [hs] at hk)
    | table8 => exact (h.lut_length_table8 hs).trans_le (by rwa [hs] at hk)

/-- Settles O35: every update feeds its bits to the whole register, and zero bits fed to a zero register change nothing. -/
theorem tableUpdatesEqualTheDivider : Obligations.TableUpdatesEqualTheDivider := by
  refine fun e h => ⟨fun c b _ hs => h.updT8_eq_updBits hs c b, fun c b hc hs => ?_, fun c n hc hs => ?_, fun k => ?_,
    fun hi lo e4 e8 he4 he8 => ⟨raw_append e hi lo, ?_⟩⟩
  · exact h.updT4_eq_updBits hs ((h.masked.le_mask_iff c).mp hc) b
  · exact (h.n4_eq_feed hs ((h.masked.le_mask_iff c).mp hc) n).trans (feed_nibble e c n)
  · exact ⟨(feedN_zero_append e k).symm, (feedR_append_zero e k).symm⟩
  · subst he4 he8
    rw [← toNat_append_nibble, h.lutEntry_construct_table8, h.lutEntry_construct_table4, h.lutEntry_construct_table4,
      raw_append_eq_nib]

end Sys2Proof.Machine
end

section
/-! SUPPORT. WRD, RDR and CONS (spec/43_definition_registers.md R153, R154, R158), and the frame of the active engine
(R159). -/

namespace Sys2Proof.Machine

/-! ### The register index space -/

namespace Reg

/-- Every register is found at its own index (R35). -/
theorem ofIndex?_index (r : Reg) : ofIndex? r.index = some r := by
  cases r with
  | staging f | active f => cases f <;> rfl
  | derived d => cases d <;> rfl
  | info j => cases j <;> rfl

/-- The index of a register is an operand RDR accepts (R35, R214). -/
theorem not_badOperand_index (r : Reg) (s : State) : ¬ BadOperand (.rdr r.index) s := by
  cases r with
  | staging f | active f => cases f <;> simp [BadOperandOn, index, Field.index]
  | derived d => cases d <;> simp [BadOperandOn, index]
  | info j => cases j <;> simp [BadOperandOn, index]

/-- The bad operands of RDR name no register (R35, R214). -/
theorem ofIndex?_eq_none {a : Nat} {s : State} (h : BadOperand (.rdr a) s) : ofIndex? a = none := by
  cases hreg : ofIndex? a with
  | none => rfl
  | some r =>
    obtain rfl := index_of_ofIndex? hreg
    exact absurd h (r.not_badOperand_index s)

/-- The indices 0x10 to 0x1B are the active and the derived registers (R35). -/
theorem ofIndex?_engine {a : Nat} (hmin : 0x10 ≤ a) (hmax : a ≤ 0x1B) :
    (∃ f, ofIndex? a = some (active f)) ∨ ∃ d, ofIndex? a = some (derived d) := by
  interval_cases a <;> simp [ofIndex?]

end Reg

/-! ### WRD -/

/-- A bad operand of WRD cannot be written (R22, R153). -/
theorem writeField?_eq_none (d : Definition) {f : Field} {v : Word} {s : State} (h : BadOperand (.wrd f.index v) s) :
    writeField? d f v = none := by
  cases f with
  | poly | init | xorOut | check => simp [BadOperandOn, Field.index] at h
  | bits | refIn | refOut =>
    exact if_neg (by simpa [BadOperandOn, Field.index, Config.bitsMin, Config.bitsMax] using h)
  | strat =>
    have hv : 2 < v.toNat := by simpa [BadOperandOn, Field.index] using h
    obtain ⟨k, hk⟩ : ∃ k, v.toNat = k + 3 := ⟨v.toNat - 3, by omega⟩
    simp only [writeField?, hk, strategyOf?]

/-- WRD of a register that is not staged, or of a value it cannot hold, fails (R153). -/
theorem exec_wrd_of_badOperand {reg : Nat} {v : Word} {s : State} (h : BadOperand (.wrd reg v) s) :
    exec (.wrd reg v) s = .next (failed s .eArg) := by
  have hraise : execWrd reg v s = s.raise .eArg := by
    unfold execWrd
    split
    · next f hreg =>
      obtain rfl : f.index = reg := index_of_ofIndex? hreg
      rw [writeField?_eq_none s.staging h]
    · rfl
  exact hraise.trans (raise_eq_failed s nofun)

/-- Settles O15: a legal value can be written and reads back, and for any other operand there is nothing to write. -/
theorem wrdWritesOneStagingRegister : Obligations.WrdWritesOneStagingRegister := by
  refine ⟨fun f v s h => ?_, fun reg v s h => exec_wrd_of_badOperand h⟩
  obtain ⟨d, hexec, hread⟩ := exec_wrd_stages h
  exact ⟨_, hexec, (hread f).trans (if_pos rfl), fun g hg => (hread g).trans (if_neg hg), rfl⟩

/-! ### CONS -/

/-- `E_TOPBIT` is the highest bit of the width (R24). -/
theorem toNat_topBitOf {n : Nat} (hpos : 1 ≤ n) (hle : n ≤ 64) : (topBitOf n).toNat = 2 ^ (n - 1) := by
  have hlt : 2 ^ (n - 1) < 2 ^ 64 := Nat.pow_lt_pow_right (by decide) (by omega)
  have hshift : 1 <<< (n - 1) = 2 ^ (n - 1) := Nat.one_shiftLeft (n - 1)
  rw [topBitOf, BitVec.natCast_eq_ofNat, hshift, toNat_ofNat_of_lt hlt]

variable {s : State}

/-- CONS of a legal width (R158). -/
theorem execCons_of_legal (hmin : 1 ≤ s.staging.bits.toNat) (hmax : s.staging.bits.toNat ≤ 64) :
    execCons s = .next (answered { s with engine := some (construct s.staging), ss := .idle } 0) :=
  if_neg (not_or.mpr ⟨not_lt.mpr hmin, not_lt.mpr hmax⟩)

/-- CONS of an illegal width (R158). -/
theorem execCons_of_illegal (h : s.staging.bits.toNat < 1 ∨ 64 < s.staging.bits.toNat) :
    execCons s = .next (failed s .eArg) :=
  (if_pos h).trans (raise_eq_failed s nofun)

/-- Settles O17: the engine is `construct` of the staged definition, whose registers are the ones listed and whose table is
that of a well-formed engine. -/
theorem consBuildsTheEngine : Obligations.ConsBuildsTheEngine := by
  refine fun s => ⟨fun hmin hmax => ?_, execCons_of_illegal⟩
  have hwf : (construct s.staging).Wf := construct_wf hmin hmax
  exact ⟨construct s.staging, execCons_of_legal hmin hmax, rfl, toNat_topBitOf hmin hmax, toNat_maskOf hmin hmax,
    rfl, rfl, rfl, rfl, rfl, rfl, rfl, rfl, rfl,
    fun hs => List.eq_nil_of_length_eq_zero (hwf.lut_length_bits hs),
    fun hs => ⟨hwf.lut_length_table4 hs, fun _ => hwf.lut_getElem?_table4 hs⟩,
    fun hs => ⟨hwf.lut_length_table8 hs, fun _ => hwf.lut_getElem?_table8 hs⟩⟩

/-! ### The frame of the engine -/

/-- R159: only CONS and RST write the active engine. -/
theorem Change.engine_eq {p : Params} {i : Instr} {u : State} (h : Change p i s u) (hcons : i ≠ .cons)
    (hrst : i ≠ .rst) : u.engine = s.engine := by
  cases h with
  | reset => exact absurd rfl hrst
  | cons => exact absurd rfl hcons
  | keep | stage | load | begin | feedChunk | feedByte | finish | write => rfl

/-- `LUT_LEN` is a view of the engine (R26). -/
theorem lutLen_eq_of_engine_eq {t : State} (h : t.engine = s.engine) : t.lutLen = s.lutLen := by
  simp only [State.lutLen, h]

/-- Settles O18: a command that answers `OK` made its change, which is CONS's only if it was a CONS, and a failure keeps the
engine. -/
theorem engineChangesOnlyByConsOrRst : Obligations.EngineChangesOnlyByConsOrRst := by
  intro i s t q ht hq hcons hrst
  have hengine : t.engine = s.engine := by
    obtain ⟨hok, u, hchange, rfl⟩ | ⟨-, rfl⟩ := execOn_cases (exec_eq_execOn i s ▸ ht) hq
    · exact hchange.engine_eq (fun hi => hcons ⟨hi, hok⟩) hrst
    · exact failed_engine s q.st
  exact ⟨hengine, lutLen_eq_of_engine_eq hengine⟩

/-! ### RDR -/

/-- A one-bit register reads as 0 or 1 (R22). -/
theorem flagWord_eq_ite (b : Bool) : flagWord b = if b then 1 else 0 := by
  cases b <;> rfl

/-- A strategy reads as its code (R22). -/
theorem ofNat_strategyCode_eq (σ : Strategy) :
    BitVec.ofNat 64 (strategyCode σ) = match σ with | .bits => 0 | .table4 => 1 | .table8 => 2 := by
  cases σ <;> rfl

/-- `STATUS` is `EV` plus `SS` from bit 1 up (R30). -/
theorem status_eq_add (s : State) : s.status =
    (if s.engine.isSome then 1 else 0) + (match s.ss with | .idle => 0 | .running => 2 | .spent => 4) := by
  unfold State.status State.ev
  cases s.engine.isSome <;> cases s.ss <;> rfl

section
variable {v : Word}

theorem exec_rdr_staging (f : Field) (hv : readField s.staging f = v) :
    exec (.rdr (Reg.staging f).index) s = .next (answered s v) := by
  simp only [exec, execRdr, execRdrOn, Reg.ofIndex?_index, hv]
  rfl

theorem execRdrOn_info (p : Params) (j : Info) (hv : readInfo p s j = v) :
    execRdrOn p (Reg.info j).index s = .next (answered s v) := by
  simp only [execRdrOn, Reg.ofIndex?_index, hv]
  rfl

theorem exec_rdr_active {e : Engine} (he : s.engine = some e) (f : Field) (hv : readField e.toDefinition f = v) :
    exec (.rdr (Reg.active f).index) s = .next (answered s v) := by
  simp only [exec, execRdr, execRdrOn, Reg.ofIndex?_index, he, hv]
  rfl

theorem exec_rdr_derived {e : Engine} (he : s.engine = some e) (d : Derived) :
    exec (.rdr (Reg.derived d).index) s = .next (answered s (readDerived e d)) := by
  simp only [exec, execRdr, execRdrOn, Reg.ofIndex?_index, he]
  rfl

/-- Without an engine there is no active and no derived register (R25, R154). -/
theorem exec_rdr_of_no_engine (he : s.engine = none) {a : Nat} (hmin : 0x10 ≤ a) (hmax : a ≤ 0x1B) :
    exec (.rdr a) s = .next (failed s .eState) := by
  have hraise : exec (.rdr a) s = s.raise .eState := by
    obtain ⟨f, hreg⟩ | ⟨d, hreg⟩ := Reg.ofIndex?_engine hmin hmax
    · simp only [exec, execRdr, execRdrOn, hreg, he]
    · simp only [exec, execRdr, execRdrOn, hreg, he]
  exact hraise.trans (raise_eq_failed s nofun)

/-- RDR of an unassigned index fails (R35, R154). -/
theorem exec_rdr_of_badOperand {a : Nat} (h : BadOperand (.rdr a) s) : exec (.rdr a) s = .next (failed s .eArg) := by
  simp only [exec, execRdr, execRdrOn, Reg.ofIndex?_eq_none h]
  exact raise_eq_failed s nofun

end

/-- Settles O16: register by register, each value as the rules write it. -/
theorem rdrReadsEveryRegister : Obligations.RdrReadsEveryRegister := by
  refine fun s => ⟨?_, fun e he => ?_, fun he a hmin hmax => exec_rdr_of_no_engine he hmin hmax,
    fun a h => exec_rdr_of_badOperand h, fun p => ⟨execRdrOn_info p .catLen rfl, _, execRdrOn_info p .bufSz rfl, ?_⟩⟩
  · simp only [List.forall_mem_cons]
    exact ⟨exec_rdr_staging .bits rfl, exec_rdr_staging .poly rfl, exec_rdr_staging .init rfl,
      exec_rdr_staging .refIn (flagWord_eq_ite _), exec_rdr_staging .refOut (flagWord_eq_ite _),
      exec_rdr_staging .xorOut rfl, exec_rdr_staging .check rfl,
      exec_rdr_staging .strat (ofNat_strategyCode_eq _), execRdrOn_info hardware .status (status_eq_add s),
      execRdrOn_info hardware .err rfl, execRdrOn_info hardware .catLen rfl, execRdrOn_info hardware .bufSz rfl, nofun⟩
  · simp only [List.forall_mem_cons]
    exact ⟨exec_rdr_active he .bits rfl, exec_rdr_active he .poly rfl, exec_rdr_active he .init rfl,
      exec_rdr_active he .refIn (flagWord_eq_ite _), exec_rdr_active he .refOut (flagWord_eq_ite _),
      exec_rdr_active he .xorOut rfl, exec_rdr_active he .check rfl,
      exec_rdr_active he .strat (ofNat_strategyCode_eq _), exec_rdr_derived he .topBit, exec_rdr_derived he .mask,
      exec_rdr_derived he .crcInit, exec_rdr_derived he .rPoly, nofun⟩
  · exact toNat_ofNat_of_lt (Nat.lt_of_le_of_lt p.buf_legal.2 (by decide))

end Sys2Proof.Machine
end

section
/-! SUPPORT. The streaming and one-shot commands as equations (spec/44_engine_compute.md R171 to R178): what each answers
inside the buffer, outside it, and without an engine or a stream. A stage of the stream is `updMsg`, an answer `fin` or
`checksum`; `updMsg_chunk` and `fin_eq` write them out as the rules do. -/

namespace Sys2Proof.Machine

variable {p : Params} {s : State} {e : Engine} {c : Word} {len off : Nat}

/-! ### The functions the rules write out -/

/-- Processing a chunk processes its bytes in ascending order (R65, R172). -/
theorem updMsg_chunk (e : Engine) (c : Word) (s : State) (len off : Nat) :
    updMsg e c (s.chunk len off) = (List.range len).foldl (fun c i => upd e c (s.memRead (off + i))) c :=
  List.foldl_map

/-- Finalisation as R175 writes it. -/
theorem fin_eq (e : Engine) (c : Word) :
    fin e c = ((if e.refOut = e.refIn then c else reflect c e.width) ^^^ e.xorOut) &&& e.mask := by
  simp only [fin, ite_not]

/-- Finalisation masks its result, for any engine (R175). -/
theorem fin_le (e : Engine) (c : Word) : fin e c ≤ e.mask := by
  rw [BitVec.le_def, fin, BitVec.toNat_and]
  exact Nat.and_le_right

/-- The check message is the text of R34. -/
theorem checkMessage_eq_ascii : checkMessage = ascii "123456789" := by decide

/-! ### Streaming -/

/-- UPD of a chunk in the buffer (R172). -/
theorem execUpdOn_of_inside (hstream : s.stream? = some (e, c)) (hle : off + len ≤ p.bufBytes) :
    execUpdOn p len off s = .next (answered { s with reg := some (updMsg e c (s.chunk len off)) } 0) := by
  simp only [execUpdOn, hstream, chunkInBuffer, hle, decide_true, if_true]
  rfl

/-- UPD of a chunk that leaves the buffer (R172). -/
theorem execUpdOn_of_outside (hstream : s.stream? = some (e, c)) (hlt : p.bufBytes < off + len) :
    execUpdOn p len off s = .next (failed s .eArg) := by
  simp only [execUpdOn, hstream, chunkInBuffer, decide_eq_false (not_le.mpr hlt), Bool.false_eq_true, if_false]
  exact raise_eq_failed s nofun

/-- UPDB (R173). -/
theorem execUpdb_of_some (hstream : s.stream? = some (e, c)) (b : Byte) :
    execUpdb b s = .next (answered { s with reg := some (upd e c b) } 0) := by
  simp only [execUpdb, hstream]
  rfl

/-! ### One shot -/

theorem execComputeOn_of_none (he : s.engine = none) : execComputeOn p len off s = .next (failed s .eState) := by
  simp only [execComputeOn, he]
  exact raise_eq_failed s nofun

/-- COMPUTE of a chunk in the buffer (R176). -/
theorem execComputeOn_of_inside (he : s.engine = some e) (hle : off + len ≤ p.bufBytes) :
    execComputeOn p len off s = .next (answered s (checksum e (s.chunk len off))) :=
  (execComputeOn_of_some he len off).trans (if_pos (decide_eq_true hle))

/-- COMPUTE of a chunk that leaves the buffer (R176). -/
theorem execComputeOn_of_outside (he : s.engine = some e) (hlt : p.bufBytes < off + len) :
    execComputeOn p len off s = .next (failed s .eArg) := by
  rw [execComputeOn_of_some he, if_neg (by simpa [chunkInBuffer] using hlt)]
  exact raise_eq_failed s nofun

theorem execGetchk_of_none (he : s.engine = none) : execGetchk s = .next (failed s .eState) := by
  simp only [execGetchk, he]
  exact raise_eq_failed s nofun

theorem execCheck_of_none (he : s.engine = none) : execCheck s = .next (failed s .eState) := by
  simp only [execCheck, he]
  exact raise_eq_failed s nofun

/-- CHECK of a right `E_CHECK` (R178). -/
theorem execCheck_of_eq (he : s.engine = some e) (heq : checksum e checkMessage = e.check) :
    execCheck s = .next (answered s (checksum e checkMessage)) :=
  (execCheck_of_some he).trans (if_neg (not_not.mpr heq))

/-- CHECK of a wrong `E_CHECK` (R178). -/
theorem execCheck_of_ne (he : s.engine = some e) (hne : checksum e checkMessage ≠ e.check) :
    execCheck s = .next (failed s .eSelftest) :=
  ((execCheck_of_some he).trans (if_pos hne)).trans (raise_eq_failed s nofun)

/-! ### The statements -/

/-- Settles O36: with an engine and without one. -/
theorem beginStartsAStream : Obligations.BeginStartsAStream :=
  fun _ => ⟨fun _ he => execBegin_of_some he, execBegin_of_none⟩

/-- Settles O37: the two sides of the buffer's end, for this hardware as for any parameters. -/
theorem updFeedsTheChunkInOrder : Obligations.UpdFeedsTheChunkInOrder := by
  intro len off s
  have hinside (p : Params) (e : Engine) (c : Word) (hstream : s.stream? = some (e, c)) (hle : off + len ≤ p.bufBytes) :
      execUpdOn p len off s = .next (answered
        { s with reg := some ((List.range len).foldl (fun c i => upd e c (s.memRead (off + i))) c) } 0) := by
    rw [execUpdOn_of_inside hstream hle, updMsg_chunk]
  have hstopped (p : Params) (hss : s.ss ≠ .running) : execUpdOn p len off s = .next (failed s .eState) :=
    execUpdOn_of_none (stream?_eq_none_of_not_running hss) len off
  refine ⟨fun e c hss he hc => ?_, hstopped hardware, fun p => ⟨fun e c hss he hc => ?_, hstopped p⟩⟩ <;>
    have hstream := stream?_eq_some.mpr ⟨hss, he, hc⟩
  · exact ⟨hinside hardware e c hstream, execUpdOn_of_outside (p := hardware) hstream⟩
  · exact ⟨hinside p e c hstream, execUpdOn_of_outside hstream⟩

/-- Settles O38: the WRB puts the byte where the UPD then reads its one byte. -/
theorem updbFeedsOneByte : Obligations.UpdbFeedsOneByte := by
  refine fun b s => ⟨fun e c hss he hc => ?_, exec_of_not_running (.inr (.inl ⟨b, rfl⟩))⟩
  have hstream := stream?_eq_some.mpr ⟨hss, he, hc⟩
  refine ⟨execUpdb_of_some hstream b, fun idx hidx => ?_⟩
  have hwrb : exec (.wrb idx b) s = .next (answered (s.memWrite idx b) 0) := execWrbOn_of_lt (p := hardware) hidx b s
  have hupd : exec (.upd 1 idx) (answered (s.memWrite idx b) 0) = _ :=
    execUpdOn_of_inside (p := hardware) (stream?_eq_some.mpr ⟨hss, he, hc⟩) hidx
  have hchunk : (answered (s.memWrite idx b) 0).chunk 1 idx = [b] :=
    congrArg (· :: []) ((memRead_memWrite s idx idx b).trans (if_pos rfl))
  rw [hchunk] at hupd
  exact ⟨_, (runAll_cons hwrb _).trans (runAll_cons hupd []), rfl⟩

/-- Settles O39: the answer is `fin_eq`, and the stream it leaves is SPENT, not RUNNING. -/
theorem finalAnswersOnceAndSpendsTheStream : Obligations.FinalAnswersOnceAndSpendsTheStream := by
  refine fun s => ⟨fun e c hss he hc => ⟨?_, exec_of_not_running (.inr (.inr rfl)) nofun⟩,
    exec_of_not_running (.inr (.inr rfl))⟩
  rw [← fin_eq]
  exact execFinal_of_some (stream?_eq_some.mpr ⟨hss, he, hc⟩)

/-- Settles O41: GETCHK's message is the text. -/
theorem getchkAnswersTheCheckMessageChecksum : Obligations.GetchkAnswersTheCheckMessageChecksum := by
  refine fun s => ⟨fun e he => ?_, execGetchk_of_none⟩
  rw [← checkMessage_eq_ascii]
  exact execGetchk_of_some he

/-- Settles O42: the checksum is at most `E_MASK`, so no `E_CHECK` above it matches. -/
theorem checkComparesAllBits : Obligations.CheckComparesAllBits := by
  refine fun s => ⟨fun e he => ?_, execCheck_of_none⟩
  rw [← checkMessage_eq_ascii]
  refine ⟨execGetchk_of_some he, execCheck_of_eq he, execCheck_of_ne he, fun hlt => execCheck_of_ne he fun heq => ?_⟩
  exact BitVec.not_le.mpr hlt (heq ▸ fin_le e _)

end Sys2Proof.Machine
end

section
/-! SUPPORT. The strategies (spec/44_engine_compute.md R180, R183): engines of one definition feed a byte to the register
alike, whatever table they read, so all they compute is the same. -/

namespace Sys2Proof.Machine

/-- R136: every strategy feeds the byte to the whole register. -/
theorem Engine.Wf.upd_eq_feed {e : Engine} (h : e.Wf) {c : Word} (hc : c ≤ e.mask) (b : Byte) :
    upd e c b = feed e c b := by
  rw [h.masked.le_mask_iff] at hc
  rw [← h.masked.updBits_eq_feed hc b]
  cases hs : e.strat with
  | bits => simp only [upd, hs]
  | table4 => simpa only [upd, hs] using h.updT4_eq_updBits hs hc b
  | table8 => simpa only [upd, hs] using h.updT8_eq_updBits hs c b

/-- Two engines CONS can have built from one definition, the strategy apart. -/
structure SameDefinition (e f : Engine) : Prop where
  wf_left : e.Wf
  wf_right : f.Wf
  same : withStrategy e.toDefinition .bits = withStrategy f.toDefinition .bits

/-- Constructed from one definition with two strategies. -/
theorem sameDefinition_construct {d : Definition} (hpos : 1 ≤ d.bits.toNat) (hle : d.bits.toNat ≤ 64) (σ τ : Strategy) :
    SameDefinition (construct (withStrategy d σ)) (construct (withStrategy d τ)) :=
  ⟨construct_wf hpos hle, construct_wf hpos hle, rfl⟩

namespace SameDefinition

variable {e f : Engine} (h : SameDefinition e f)
include h

/-- The second engine is the first one built again with its own strategy. -/
theorem eq_construct : f = construct (withStrategy e.toDefinition f.strat) := by
  have hdef : withStrategy e.toDefinition f.strat = f.toDefinition := (congrArg (withStrategy · f.strat) h.same :)
  rw [hdef, h.wf_right.constructed]

/-- A part of the engine that CONS computes without the strategy is the same in both. -/
theorem eq_of_construct {α : Type} (g : Engine → α)
    (hg : ∀ σ, g (construct (withStrategy e.toDefinition σ)) = g (construct e.toDefinition)) : g e = g f := by
  rw [h.eq_construct, hg, h.wf_left.constructed]

theorem mask_eq : e.mask = f.mask := h.eq_of_construct Engine.mask fun _ => rfl

theorem crcInit_eq : e.crcInit = f.crcInit := h.eq_of_construct Engine.crcInit fun _ => rfl

theorem check_eq : e.check = f.check := (congrArg Definition.check h.same :)

theorem fin_eq (c : Word) : fin e c = fin f c := h.eq_of_construct (fin · c) fun _ => rfl

theorem feed_eq (c : Word) (b : Byte) : feed e c b = feed f c b := h.eq_of_construct (feed · c b) fun _ => rfl

/-- R180: the same update of every register value in the width. -/
theorem upd_eq {c : Word} (hc : c ≤ e.mask) (b : Byte) : upd e c b = upd f c b :=
  calc upd e c b = feed e c b := h.wf_left.upd_eq_feed hc b
    _ = feed f c b := h.feed_eq c b
    _ = upd f c b := (h.wf_right.upd_eq_feed (h.mask_eq ▸ hc) b).symm

/-- So the same after any message, for the register stays in the width (R38). -/
theorem updMsg_eq {c : Word} (hc : c ≤ e.mask) (m : List Byte) : updMsg e c m = updMsg f c m := by
  induction m generalizing c with
  | nil => rfl
  | cons b m ih => rw [updMsg_cons, updMsg_cons, ← h.upd_eq hc b, ih (h.wf_left.upd_le_mask hc b)]

/-- R180, R184: the checksum is a function of the definition and the message. -/
theorem checksum_eq (m : List Byte) : checksum e m = checksum f m := by
  rw [checksum, checksum, ← h.crcInit_eq, ← h.updMsg_eq h.wf_left.crcInit_le_mask, h.fin_eq]

end SameDefinition

/-! ### The commands under another engine -/

/-- The state with an active engine. -/
def State.withEngine (s : State) (e : Engine) : State := { s with engine := some e }

/-- Without RUNNING or a register value there is no stream under any engine, and with both there is one (R28). -/
theorem stream?_withEngine_cases (s : State) :
    (∀ e, (s.withEngine e).stream? = none) ∨ ∃ c, s.reg = some c ∧ ∀ e, (s.withEngine e).stream? = some (e, c) := by
  by_cases hss : s.ss = .running
  · cases hc : s.reg with
    | none => exact .inl fun e => by simp only [State.stream?, State.withEngine, hss, hc]
    | some c => exact .inr ⟨c, rfl, fun e => stream?_eq_some.mpr ⟨hss, rfl, hc⟩⟩
  · exact .inl fun e => stream?_eq_none_of_not_running hss

/-- When the first outcome is a next state, the second is that state with the engine `f`. -/
def EndsAlike (f : Engine) (a b : Result) : Prop := ∀ t, a = .next t → b = .next (t.withEngine f)

theorem endsAlike_respond (s : State) (e f : Engine) (v : Word) :
    EndsAlike f ((s.withEngine e).respond v) ((s.withEngine f).respond v) := by
  rintro _ ⟨⟩
  rfl

theorem endsAlike_raise (s : State) (e f : Engine) (st : Status) :
    EndsAlike f ((s.withEngine e).raise st) ((s.withEngine f).raise st) := by
  rintro _ ⟨⟩
  rfl

namespace SameDefinition

variable {e f : Engine} (h : SameDefinition e f) (s : State)
include h

section stream
variable (hreg : ∀ c, s.reg = some c → c ≤ e.mask)
include hreg

theorem execUpd_alike (len off : Nat) :
    EndsAlike f (execUpd len off (s.withEngine e)) (execUpd len off (s.withEngine f)) := by
  obtain hnone | ⟨c, hc, hsome⟩ := stream?_withEngine_cases s
  · simp only [execUpd, execUpdOn, hnone]
    exact endsAlike_raise s e f .eState
  · simp only [execUpd, execUpdOn, hsome, ← h.updMsg_eq (hreg c hc)]
    split
    · exact endsAlike_respond { s with reg := some (updMsg e c (s.chunk len off)) } e f 0
    · exact endsAlike_raise s e f .eArg

theorem execUpdb_alike (b : Byte) : EndsAlike f (execUpdb b (s.withEngine e)) (execUpdb b (s.withEngine f)) := by
  obtain hnone | ⟨c, hc, hsome⟩ := stream?_withEngine_cases s
  · simp only [execUpdb, hnone]
    exact endsAlike_raise s e f .eState
  · simp only [execUpdb, hsome, ← h.upd_eq (hreg c hc)]
    exact endsAlike_respond { s with reg := some (upd e c b) } e f 0

end stream

theorem execFinal_alike : EndsAlike f (execFinal (s.withEngine e)) (execFinal (s.withEngine f)) := by
  obtain hnone | ⟨c, -, hsome⟩ := stream?_withEngine_cases s
  · simp only [execFinal, hnone]
    exact endsAlike_raise s e f .eState
  · simp only [execFinal, hsome, ← h.fin_eq]
    exact endsAlike_respond { s with ss := .spent } e f (fin e c)

theorem execCompute_alike (len off : Nat) :
    EndsAlike f (execCompute len off (s.withEngine e)) (execCompute len off (s.withEngine f)) := by
  simp only [execCompute, execComputeOn_of_some (s := s.withEngine _) rfl, ← h.checksum_eq]
  split
  · exact endsAlike_respond s e f (checksum e (s.chunk len off))
  · exact endsAlike_raise s e f .eArg

theorem execGetchk_alike : EndsAlike f (execGetchk (s.withEngine e)) (execGetchk (s.withEngine f)) := by
  simp only [execGetchk_of_some (s := s.withEngine _) rfl, ← h.checksum_eq]
  exact endsAlike_respond s e f (checksum e checkMessage)

theorem execCheck_alike : EndsAlike f (execCheck (s.withEngine e)) (execCheck (s.withEngine f)) := by
  simp only [execCheck_of_some (s := s.withEngine _) rfl, ← h.checksum_eq, ← h.check_eq]
  split
  · exact endsAlike_raise s e f .eSelftest
  · exact endsAlike_respond s e f (checksum e checkMessage)

end SameDefinition

/-! ### The statements -/

/-- Settles O44: the two engines are of one definition, and the six commands compute the same with them. -/
theorem strategiesAgree : Obligations.StrategiesAgree := by
  intro d σ τ hpos hle
  have h := sameDefinition_construct hpos hle σ τ
  refine ⟨fun c b hc => h.upd_eq hc b, fun i s t hi hreg => ?_⟩
  obtain ⟨len, off, rfl | rfl⟩ | ⟨b, rfl⟩ | rfl | rfl | rfl := hi
  · exact h.execUpd_alike s hreg len off t
  · exact h.execCompute_alike s len off t
  · exact h.execUpdb_alike s hreg b t
  · exact h.execFinal_alike s t
  · exact h.execGetchk_alike s t
  · exact h.execCheck_alike s t

/-- Settles O46: GETCHK answers the checksum of the right strategy's engine; the three constants are closed. -/
theorem knownAnswersForEveryStrategy : Obligations.KnownAnswersForEveryStrategy := by
  refine ⟨fun d s τ σ hpos hle hcheck he => ?_, by decide +kernel⟩
  rw [← hcheck, (sameDefinition_construct hpos hle τ σ).checksum_eq]
  exact execGetchk_of_some he

end Sys2Proof.Machine
end

section
/-! SUPPORT. Runs from BEGIN to FINAL (spec/44_engine_compute.md R176, R179, R181, R184): the running register is the update
of `E_CRCINIT` with the bytes fed so far (`exec_of_keepsStream`), so FINAL answers the checksum of the bytes fed
(`runAll_stream`). -/

namespace Sys2Proof.Machine

variable {s u : State} {e : Engine} {c : Word}

/-! ### One command while a stream runs -/

/-- Only UPD and UPDB feed a stream (R172, R173). -/
theorem fedBy_eq_nil {i : Instr} (hupd : ∀ len off, i ≠ .upd len off) (hupdb : ∀ b, i ≠ .updb b) (s : State) :
    fedBy i s = [] := by
  cases i with
  | upd len off => exact absurd rfl (hupd len off)
  | updb b => exact absurd rfl (hupdb b)
  | _ => rfl

theorem fedBy_upd_of_le {len off : Nat} (hle : off + len ≤ 4096) (s : State) :
    fedBy (.upd len off) s = s.chunk len off :=
  if_pos hle

theorem fedBy_upd_of_lt {len off : Nat} (hlt : 4096 < off + len) (s : State) : fedBy (.upd len off) s = [] :=
  if_neg (not_le.mpr hlt)

/-- Every command ends in a next state (R70). -/
theorem exec_eq_next (i : Instr) (s : State) : ∃ t, exec i s = .next t := by
  obtain ⟨t, -, ht, -⟩ := (exec_ends i s).answersOnce
  exact ⟨t, ht⟩

/-- A command that keeps the stream updates the running register with the bytes it feeds (R27, R28). -/
theorem exec_of_keepsStream {i : Instr} (hi : keepsStream i = true) (hstream : s.stream? = some (e, c)) :
    ∃ t, exec i s = .next t ∧ t.stream? = some (e, updMsg e c (fedBy i s)) := by
  obtain ⟨hss, he, hc⟩ := stream?_eq_some.mp hstream
  by_cases hupd : ∃ len off, i = .upd len off
  · obtain ⟨len, off, rfl⟩ := hupd
    by_cases hle : off + len ≤ 4096
    · rw [fedBy_upd_of_le hle]
      exact ⟨_, execUpdOn_of_inside (p := hardware) hstream hle, stream?_eq_some.mpr ⟨hss, he, rfl⟩⟩
    · rw [fedBy_upd_of_lt (not_le.mp hle)]
      exact ⟨_, execUpdOn_of_outside (p := hardware) hstream (not_le.mp hle), hstream⟩
  by_cases hupdb : ∃ b, i = .updb b
  · obtain ⟨b, rfl⟩ := hupdb
    exact ⟨_, execUpdb_of_some hstream b, stream?_eq_some.mpr ⟨hss, he, rfl⟩⟩
  push Not at hupd hupdb
  obtain ⟨hbegin, hfinal, hcons, hrst⟩ := of_decide_eq_true hi
  obtain ⟨t, ht⟩ := exec_eq_next i s
  have hss' : t.ss = s.ss := exec_keeps State.ss answer_ss (failed_ss s)
    (fun _ hchange => hchange.ss_eq hbegin hfinal hcons hrst) ht
  have he' : t.engine = s.engine := exec_keeps State.engine answer_engine (failed_engine s)
    (fun _ hchange => hchange.engine_eq hcons hrst) ht
  have hc' : t.reg = s.reg := exec_keeps State.reg answer_reg (failed_reg s)
    (fun _ hchange => hchange.reg_eq hbegin hupd hupdb hrst) ht
  rw [fedBy_eq_nil hupd hupdb, updMsg_nil]
  exact ⟨t, ht, stream?_eq_some.mpr ⟨hss'.trans hss, he'.trans he, hc'.trans hc⟩⟩

/-! ### A run while a stream runs -/

/-- The bytes fed by a run are those its first command feeds and those the rest feeds in the state it leaves. -/
theorem fedDuring_cons {i : Instr} {t : State} (ht : exec i s = .next t) (rest : List Instr) :
    fedDuring (i :: rest) s = fedBy i s ++ fedDuring rest t := by
  simp only [fedDuring, ht]

/-- Commands that keep the stream run to the end, and leave the register updated with the bytes they fed. -/
theorem runAll_keepsStream {cmds : List Instr} (hcmds : ∀ i ∈ cmds, keepsStream i = true)
    (hstream : s.stream? = some (e, c)) (rest : List Instr) :
    ∃ t, runAll (cmds ++ rest) s = runAll rest t ∧ t.stream? = some (e, updMsg e c (fedDuring cmds s)) := by
  induction cmds generalizing s c with
  | nil => exact ⟨s, rfl, hstream⟩
  | cons i cmds ih =>
    obtain ⟨hi, hcmds⟩ := List.forall_mem_cons.mp hcmds
    obtain ⟨u, hu, hfed⟩ := exec_of_keepsStream hi hstream
    obtain ⟨t, hrun, ht⟩ := ih hcmds hfed
    refine ⟨t, (runAll_cons hu _).trans hrun, ?_⟩
    rw [fedDuring_cons hu, updMsg_append, ht]

/-- A whole stream answers the checksum of the bytes fed between BEGIN and FINAL (R181). -/
theorem runAll_stream (he : s.engine = some e) {cmds : List Instr} (hcmds : ∀ i ∈ cmds, keepsStream i = true) :
    ∃ t, runAll (.begin :: cmds ++ [.final]) s = .next t ∧
      t.responses.head? = some ⟨.ok, checksum e (fedDuring cmds (begun s e))⟩ := by
  have hbegun : (begun s e).stream? = some (e, e.crcInit) := stream?_eq_some.mpr ⟨rfl, he, rfl⟩
  obtain ⟨t, hrun, hstream⟩ := runAll_keepsStream hcmds hbegun [.final]
  have hbegin : exec .begin s = .next (begun s e) := execBegin_of_some he
  have hfinal : exec .final t = _ := execFinal_of_some hstream
  exact ⟨_, (runAll_cons hbegin _).trans (hrun.trans (runAll_cons hfinal [])), rfl⟩

/-! ### Feeding a message of the buffer -/

/-- BEGIN leaves the buffer alone (R171). -/
@[simp] theorem begun_memRead (s : State) (e : Engine) (a : Nat) : (begun s e).memRead a = s.memRead a := rfl

/-- What a command feeds depends on the buffer only (R172). -/
theorem fedBy_congr (hread : ∀ a, u.memRead a = s.memRead a) (i : Instr) : fedBy i u = fedBy i s := by
  cases i with
  | upd len off => simp only [fedBy, chunk_congr fun a _ _ => hread a]
  | _ => rfl

/-- Commands that do not write the buffer feed what each would feed from the buffer at the start (R254). -/
theorem fedDuring_of_no_wrb {cmds : List Instr} (hcmds : ∀ i ∈ cmds, ∀ idx b, i ≠ .wrb idx b)
    (hread : ∀ a, u.memRead a = s.memRead a) : fedDuring cmds u = cmds.flatMap (fedBy · s) := by
  induction cmds generalizing u with
  | nil => rfl
  | cons i cmds ih =>
    obtain ⟨hi, hcmds⟩ := List.forall_mem_cons.mp hcmds
    obtain ⟨t, ht⟩ := exec_eq_next i u
    have hkept (a : Nat) : t.memRead a = u.memRead a :=
      bufferChangesOnlyByWrb i u t ht a fun idx b h => absurd h (hi idx b)
    rw [fedDuring_cons ht, fedBy_congr hread, ih hcmds fun a => (hkept a).trans (hread a), List.flatMap_cons]

section
variable {off : Nat} {chunks : List (Nat × Bool)}

theorem mem_feedCommands {i : Instr} (hi : i ∈ feedCommands s off chunks) :
    (∃ len off, i = .upd len off) ∨ ∃ b, i = .updb b := by
  induction chunks generalizing off with
  | nil => exact absurd hi List.not_mem_nil
  | cons chunk rest ih =>
    obtain ⟨n, asUpd⟩ := chunk
    obtain hfirst | hrest := List.mem_append.mp hi
    · cases asUpd with
      | true => exact .inl ⟨n, off, List.mem_singleton.mp hfirst⟩
      | false =>
        obtain ⟨b, -, rfl⟩ := List.mem_map.mp hfirst
        exact .inr ⟨b, rfl⟩
    · exact ih hrest

theorem keepsStream_of_mem_feedCommands {i : Instr} (hi : i ∈ feedCommands s off chunks) : keepsStream i = true := by
  obtain ⟨len, off, rfl⟩ | ⟨b, rfl⟩ := mem_feedCommands hi <;> rfl

theorem ne_wrb_of_mem_feedCommands {i : Instr} (hi : i ∈ feedCommands s off chunks) (idx : Nat) (b : Byte) :
    i ≠ .wrb idx b := by
  obtain ⟨len, off, rfl⟩ | ⟨b', rfl⟩ := mem_feedCommands hi <;> exact nofun

/-- Contiguous chunks, each fed by one UPD or by UPDBs, are the message (R181). -/
theorem flatMap_fedBy_feedCommands (hle : off + totalLength chunks ≤ 4096) :
    (feedCommands s off chunks).flatMap (fedBy · s) = s.chunk (totalLength chunks) off := by
  induction chunks generalizing off with
  | nil => rfl
  | cons chunk rest ih =>
    obtain ⟨n, asUpd⟩ := chunk
    have htotal : totalLength ((n, asUpd) :: rest) = n + totalLength rest := rfl
    rw [htotal] at hle ⊢
    rw [feedCommands, List.flatMap_append, ih (by omega), chunk_add]
    congr 1
    cases asUpd with
    | true => exact (List.append_nil _).trans (fedBy_upd_of_le (by omega) s)
    | false => exact (List.flatMap_map ..).trans (List.flatMap_singleton' _)

/-- However a message of the buffer is cut, the stream answers its checksum (R181). -/
theorem runAll_feedCommands (he : s.engine = some e) (hle : off + totalLength chunks ≤ 4096) :
    ∃ t, runAll (.begin :: feedCommands s off chunks ++ [.final]) s = .next t ∧
      t.responses.head? = some ⟨.ok, checksum e (s.chunk (totalLength chunks) off)⟩ := by
  have hfed : fedDuring (feedCommands s off chunks) (begun s e) = s.chunk (totalLength chunks) off :=
    (fedDuring_of_no_wrb (fun _ => ne_wrb_of_mem_feedCommands) (begun_memRead s e)).trans
      (flatMap_fedBy_feedCommands hle)
  rw [← hfed]
  exact runAll_stream he fun _ => keepsStream_of_mem_feedCommands

end

/-! ### The empty message -/

/-- `E_CRCINIT` is `E_INIT`, reflected in reflected mode (R24). -/
theorem Engine.Wf.crcInit_eq (h : e.Wf) : e.crcInit = if e.refIn then reflect e.init e.width else e.init := by
  rw [← h.constructed]
  rfl

/-- `E_CRCINIT` turned to the output's bit order (R179): the two reflections of reflected input and normal output
cancel. -/
theorem Engine.Wf.reflect_crcInit (h : e.Wf) :
    (if e.refOut = e.refIn then e.crcInit else reflect e.crcInit e.width) =
      if e.refOut then reflect e.init e.width else e.init := by
  rw [h.crcInit_eq]
  cases hin : e.refIn <;> cases hout : e.refOut
  · rfl
  · rfl
  · exact h.masked.reflect_reflect_of_lt ((h.masked.le_mask_iff _).mp h.init_le_mask)
  · rfl

/-! ### The statements -/

/-- Settles O40: the stream of one UPD is the stream of one chunk. -/
theorem computeAnswersTheChecksumOfTheChunk : Obligations.ComputeAnswersTheChecksumOfTheChunk := by
  intro len off s
  have hchecksum (e : Engine) : checksum e (s.chunk len off) =
      fin e ((List.range len).foldl (fun c i => upd e c (s.memRead (off + i))) e.crcInit) := by
    rw [checksum, updMsg_chunk]
  refine ⟨fun e he => ⟨fun hle => ?_, execComputeOn_of_outside (p := hardware) he⟩, execComputeOn_of_none,
    fun p => ⟨fun e he => ⟨fun hle => ?_, execComputeOn_of_outside he⟩, execComputeOn_of_none⟩⟩ <;> rw [← hchecksum]
  · exact ⟨execComputeOn_of_inside (p := hardware) he hle, runAll_feedCommands (chunks := [(len, true)]) he hle⟩
  · exact execComputeOn_of_inside he hle

/-- Settles O43: no bytes are fed, so all three finalise `E_CRCINIT`. -/
theorem emptyMessageChecksum : Obligations.EmptyMessageChecksum := by
  intro s e off he h hle
  have hfin : fin e e.crcInit = if e.refOut then (reflect e.init e.width ^^^ e.xorOut) &&& e.mask
      else (e.init ^^^ e.xorOut) &&& e.mask := by
    rw [fin_eq, h.reflect_crcInit]
    cases e.refOut <;> rfl
  rw [← hfin]
  exact ⟨execComputeOn_of_inside (p := hardware) he hle, rfl, runAll_stream (cmds := []) he nofun⟩

/-- Settles O45: both answer the checksum of the message, by `runAll_feedCommands` and `runAll_stream`. -/
theorem chunkBoundariesDoNotMatter : Obligations.ChunkBoundariesDoNotMatter := by
  refine ⟨fun s e off chunks he hle => ?_, fun s e cmds he hcmds => ?_⟩
  · obtain ⟨t, hrun, hanswer⟩ := runAll_feedCommands he hle
    exact ⟨_, t, execComputeOn_of_inside (p := hardware) he hle, hrun, hanswer⟩
  · obtain ⟨t, hrun, hanswer⟩ := runAll_stream he hcmds
    refine ⟨t, hrun, hanswer, fun u off hu hle hchunk => ?_⟩
    have hcompute := execComputeOn_of_inside (p := hardware) hu hle
    rwa [hchunk] at hcompute

/-- Settles O48: every answer is the checksum of the bytes, and engines of one definition have the same checksums. -/
theorem checksumDependsOnDefinitionAndBytesOnly : Obligations.ChecksumDependsOnDefinitionAndBytesOnly := by
  intro s s' e e' he he' h h' hsame
  have hdef : SameDefinition e e' := ⟨h, h', hsame⟩
  have hchecksum {len off off' : Nat} (hread : ∀ i, i < len → s.memRead (off + i) = s'.memRead (off' + i)) :
      checksum e' (s'.chunk len off') = checksum e (s.chunk len off) := by
    have hchunk : s.chunk len off = s'.chunk len off' :=
      List.map_congr_left fun i hi => hread i (List.mem_range.mp hi)
    rw [hchunk, hdef.checksum_eq]
  refine ⟨fun len off off' hle hle' hread => ⟨_, execComputeOn_of_inside (p := hardware) he hle, ?_⟩,
    fun off off' chunks chunks' hle hle' htotal hread => ?_, fun cmds cmds' hcmds hcmds' hfed => ?_⟩
  · rw [← hchecksum hread]
    exact execComputeOn_of_inside (p := hardware) he' hle'
  · obtain ⟨t, hrun, hanswer⟩ := runAll_feedCommands he hle
    obtain ⟨t', hrun', hanswer'⟩ := runAll_feedCommands he' (htotal.symm ▸ hle')
    rw [htotal, hchecksum hread] at hanswer'
    exact ⟨_, t, t', hrun, hrun', hanswer, hanswer'⟩
  · obtain ⟨t, hrun, hanswer⟩ := runAll_stream he hcmds
    obtain ⟨t', hrun', hanswer'⟩ := runAll_stream he' hcmds'
    rw [← hfed, ← hdef.checksum_eq] at hanswer'
    exact ⟨_, t, t', hrun, hrun', hanswer, hanswer'⟩

end Sys2Proof.Machine
end

section
/-! SUPPORT. The catalogue (spec/45_catalogue_rom.md R190 to R194): the nine entries of this hardware by their place in the
table, LDCAT and RDCAT as equations for any catalogue, and the self-test. -/

namespace Sys2Proof.Machine

/-! ### The entries of this hardware -/

/-- The parameter set of entry `i`: three entries each (R191). -/
def romSet (i : Nat) : Definition :=
  if i / 3 = 0 then crc32IsoHdlc .bits else if i / 3 = 1 then crc64Xz .bits else crc32Bzip2 .bits

/-- The strategy of entry `i`: each set in the order Table8, Table4, Bits (R191). -/
def romStrategy (i : Nat) : Strategy :=
  if i % 3 = 0 then .table8 else if i % 3 = 1 then .table4 else .bits

/-- The name of entry `i` (R191). -/
def romName (i : Nat) : List Byte :=
  ascii (if i / 3 = 0 then "CRC-32/ISO-HDLC" else if i / 3 = 1 then "CRC-64/XZ" else "CRC-32/BZIP2")

/-- The table of R191, row by row. -/
theorem exists_catalogueEntry?_hardware {i : Nat} (hi : i < 9) : ∃ c, catalogueEntry? hardware i = some c ∧
    c.definition = withStrategy (romSet i) (romStrategy i) ∧ c.name = romName i := by
  refine ⟨_, catalogueEntry?_of_lt (p := hardware) hi, ?_, ?_⟩
  · interval_cases i <;> rfl
  · interval_cases i <;> rfl

theorem romSet_check (i : Nat) : (romSet i).check =
    if i / 3 = 0 then 0xCBF43926 else if i / 3 = 1 then 0x995DC9BBDF1939FA else 0xFC891918 := by
  unfold romSet
  split_ifs <;> rfl

theorem romSet_mem (i : Nat) : romSet i ∈ [crc32IsoHdlc .bits, crc64Xz .bits, crc32Bzip2 .bits] := by
  unfold romSet
  split_ifs <;> simp

/-- Every strategy computes the documented checksum of the check message (R180, R183). -/
theorem checksum_romSet (i : Nat) (σ : Strategy) :
    checksum (construct (withStrategy (romSet i) σ)) checkMessage = (romSet i).check := by
  have hlegal : ∀ d ∈ [crc32IsoHdlc .bits, crc64Xz .bits, crc32Bzip2 .bits],
      1 ≤ d.bits.toNat ∧ d.bits.toNat ≤ 64 := by decide
  obtain ⟨hpos, hle⟩ := hlegal _ (romSet_mem i)
  calc checksum (construct (withStrategy (romSet i) σ)) checkMessage
      = checksum (construct (romSet i)) checkMessage :=
        (sameDefinition_construct hpos hle σ (romSet i).strat).checksum_eq checkMessage
    _ = (romSet i).check := knownAnswersForEveryStrategy.2 _ (romSet_mem i)

/-! ### LDCAT -/

variable {p : Params} {i : Nat} {c : CatalogueEntry} {s : State}

/-- LDCAT of an entry (R192). -/
theorem execLdcatOn_of_some (hc : catalogueEntry? p i = some c) :
    execLdcatOn p i s = .next (answered { s with staging := c.definition } 0) := by
  simp only [execLdcatOn, hc]
  rfl

/-- LDCAT at or above `CATLEN` (R192). -/
theorem execLdcatOn_of_le (hi : p.catLen ≤ i) : execLdcatOn p i s = .next (failed s .eArg) := by
  simp only [execLdcatOn, catalogueEntry?_of_le hi]
  exact raise_eq_failed s nofun

/-! ### RDCAT -/

namespace Selector

/-- Every selector is found at its own code (R193). -/
theorem ofCode?_code (x : Selector) : ofCode? x.code = some x := by
  cases x with
  | field f => cases f <;> rfl
  | nameLen => rfl
  | nameChar j =>
    rw [code, ofCode?, if_neg (by omega), if_neg (by omega), if_pos (by omega), Nat.add_sub_cancel_left]

/-- The codes 0x09 to 0x7F are unassigned (R193). -/
theorem ofCode?_eq_none {sel : Nat} (hmin : 0x09 ≤ sel) (hmax : sel ≤ 0x7F) : ofCode? sel = none := by
  rw [ofCode?, if_neg (by omega), if_neg (by omega), if_neg (by omega)]

end Selector

/-- Every place up to 7 is that of a field (R21). -/
theorem Field.exists_index_eq {k : Nat} (hk : k ≤ 7) : ∃ f : Field, f.index = k := by
  interval_cases k
  exacts [⟨.bits, rfl⟩, ⟨.poly, rfl⟩, ⟨.init, rfl⟩, ⟨.refIn, rfl⟩, ⟨.refOut, rfl⟩, ⟨.xorOut, rfl⟩, ⟨.check, rfl⟩,
    ⟨.strat, rfl⟩]

/-- RDCAT of a part of an entry (R193). -/
theorem execRdcatOn_of_some (hc : catalogueEntry? p i = some c) (x : Selector) :
    execRdcatOn p i x.code s = .next (answered s (readEntry c x)) := by
  simp only [execRdcatOn, hc, x.ofCode?_code]
  rfl

/-- RDCAT at or above `CATLEN`, or of an unassigned selector (R193). -/
theorem execRdcatOn_of_bad {sel : Nat} (h : p.catLen ≤ i ∨ (0x09 ≤ sel ∧ sel ≤ 0x7F)) :
    execRdcatOn p i sel s = .next (failed s .eArg) := by
  have hraise : execRdcatOn p i sel s = s.raise .eArg := by
    obtain hi | ⟨hmin, hmax⟩ := h
    · simp only [execRdcatOn, catalogueEntry?_of_le hi]
    · simp only [execRdcatOn, Selector.ofCode?_eq_none hmin hmax]
      cases catalogueEntry? p i <;> rfl
  exact hraise.trans (raise_eq_failed s nofun)

/-- RDR of a staging register in a block with parameters `p` (R154). -/
theorem execRdrOn_staging (f : Field) : execRdrOn p f.index s = .next (answered s (readField s.staging f)) := by
  change execRdrOn p (Reg.staging f).index s = _
  simp only [execRdrOn, Reg.ofIndex?_index]
  rfl

/-- The parts of an entry by the ranges of the selector's code (R193). -/
theorem execOn_rdcat_of_some (hc : catalogueEntry? p i = some c) (sel : Nat) (s : State) :
    (sel ≤ 7 → ∃ r t, execOn p (.rdcat i sel) s = .next (answered s r) ∧ execOn p (.ldcat i) s = .next t ∧
      execOn p (.rdr sel) t = .next (answered t r)) ∧
    (sel = 8 → execOn p (.rdcat i sel) s = .next (answered s (BitVec.ofNat 64 c.name.length))) ∧
    (0x80 ≤ sel → execOn p (.rdcat i sel) s = .next (answered s ((c.name.getD (sel - 0x80) 0).setWidth 64))) := by
  refine ⟨fun hsel => ?_, fun hsel => ?_, fun hsel => ?_⟩
  · obtain ⟨f, rfl⟩ := Field.exists_index_eq hsel
    exact ⟨_, _, execRdcatOn_of_some hc (.field f), execLdcatOn_of_some hc, execRdrOn_staging f⟩
  · subst hsel
    exact execRdcatOn_of_some hc .nameLen
  · obtain ⟨j, rfl⟩ := Nat.exists_eq_add_of_le hsel
    rw [Nat.add_sub_cancel_left]
    exact execRdcatOn_of_some hc (.nameChar j)

/-! ### The statements -/

/-- Settles O49: LDCAT stages the entry's definition, and the nine of this hardware are those of the table. -/
theorem ldcatCopiesTheEntry : Obligations.LdcatCopiesTheEntry := by
  refine fun i s => ⟨fun hi => ?_, execLdcatOn_of_le (p := hardware), fun p => ⟨fun c hc => execLdcatOn_of_some hc,
    execLdcatOn_of_le⟩⟩
  obtain ⟨c, hc, hdef, -⟩ := exists_catalogueEntry?_hardware hi
  refine (execLdcatOn_of_some hc).trans ?_
  rw [hdef]
  interval_cases i <;> rfl

/-- Settles O50: the selectors of any entry, and of this hardware's nine names. -/
theorem rdcatReadsOnePartOfAnEntry : Obligations.RdcatReadsOnePartOfAnEntry := by
  refine fun i sel s => ⟨fun hi => ?_, execRdcatOn_of_bad (p := hardware),
    fun p => ⟨fun c hc => execOn_rdcat_of_some hc sel s, execRdcatOn_of_bad⟩⟩
  obtain ⟨c, hc, -, hname⟩ := exists_catalogueEntry?_hardware hi
  rw [romName] at hname
  rw [← hname]
  exact execOn_rdcat_of_some hc sel s

/-- Settles O47: the entry's width is legal, so CONS builds its engine, whose checksum is the documented one. -/
theorem catalogueSelfTestPasses : Obligations.CatalogueSelfTestPasses := by
  intro s i hi
  obtain ⟨c, hc, hdef, -⟩ := exists_catalogueEntry?_hardware hi
  have hcheck : checksum (construct c.definition) checkMessage = c.definition.check :=
    hdef ▸ checksum_romSet i (romStrategy i)
  have hldcat : exec (.ldcat i) s = .next (answered { s with staging := c.definition } 0) := execLdcatOn_of_some hc
  have hcons : exec .cons (answered { s with staging := c.definition } 0) = _ :=
    execCons_of_legal c.bits_legal.1 c.bits_legal.2
  have hpass (u : State) (hu : u.engine = some (construct c.definition)) :
      exec .check u = .next (answered u c.definition.check) :=
    hcheck ▸ execCheck_of_eq hu hcheck
  exact ⟨_, _, (runAll_cons hldcat _).trans ((runAll_cons hcons _).trans (runAll_cons (hpass _ rfl) [])),
    rfl, rfl, hdef ▸ romSet_check i⟩

end Sys2Proof.Machine
end

section
/-! SUPPORT. The buffer and system commands: NOP, RST, WRB and RDB (spec/46_buffer_and_system.md). -/

namespace Sys2Proof.Machine

variable {p : Params} {idx : Nat}

/-- An index at or above `BUFSZ` is outside the buffer (R62). -/
theorem inBuffer_eq_false (hidx : p.bufBytes ≤ idx) : inBuffer p idx = false :=
  decide_eq_false (Nat.not_lt.mpr hidx)

/-! ### WRB -/

/-- WRB outside the buffer (R202). -/
theorem execWrbOn_of_le (hidx : p.bufBytes ≤ idx) (b : Byte) (s : State) :
    execWrbOn p idx b s = .next (failed s .eArg) := by
  rw [execWrbOn, inBuffer_eq_false hidx]
  exact raise_eq_failed s nofun

/-- The state after a WRB inside the buffer: one byte and one response differ (R202). -/
theorem execWrbOn_writes (hidx : idx < p.bufBytes) (b : Byte) (s : State) :
    ∃ t, execWrbOn p idx b s = .next t ∧ t.memRead idx = b ∧ (∀ a, a ≠ idx → t.memRead a = s.memRead a) ∧
      t = answered { s with buf := t.buf } 0 :=
  ⟨_, execWrbOn_of_lt hidx b s, (memRead_memWrite s idx idx b).trans (if_pos rfl),
    fun a ha => (memRead_memWrite s idx a b).trans (if_neg ha), rfl⟩

/-! ### RDB -/

/-- RDB inside the buffer (R203). -/
theorem execRdbOn_of_lt (hidx : idx < p.bufBytes) (s : State) :
    execRdbOn p idx s = .next (answered s ((s.memRead idx).setWidth 64)) :=
  if_pos (decide_eq_true hidx)

/-- RDB outside the buffer (R203). -/
theorem execRdbOn_of_le (hidx : p.bufBytes ≤ idx) (s : State) :
    execRdbOn p idx s = .next (failed s .eArg) := by
  rw [execRdbOn, inBuffer_eq_false hidx]
  exact raise_eq_failed s nofun

/-- RDB after a WRB at the same index answers the byte written (R203). -/
theorem execRdbOn_after_execWrbOn (hidx : idx < p.bufBytes) (b : Byte) (s : State) :
    ∃ t u, execWrbOn p idx b s = .next t ∧ execRdbOn p idx t = .next u ∧
      u.responses.head? = some ⟨.ok, b.setWidth 64⟩ := by
  obtain ⟨t, hwrb, hread, -, -⟩ := execWrbOn_writes hidx b s
  refine ⟨t, _, hwrb, execRdbOn_of_lt hidx t, ?_⟩
  rw [hread]
  rfl

/-! ### The statements -/

/-- Settles O13: NOP is one response `OK` with the value 0. -/
theorem nopAnswersZero : Obligations.NopAnswersZero := fun _ => rfl

/-- Settles O14: RST leaves the staging registers of the reset state, and `softReset` gives every other field. -/
theorem rstResetsAllButTheBuffer : Obligations.RstResetsAllButTheBuffer := by
  obtain ⟨hstaging, -⟩ := resetStateIsTheTableOfReset
  exact fun s => ⟨s.softReset.answer .ok 0, rfl, hstaging, softReset_engine s, rfl, softReset_ss s, softReset_reg s,
    softReset_err s, fun _ => rfl, softReset_launch s, softReset_port s,
    answer_responses s.softReset .ok 0⟩

/-- Settles O51: this hardware is the block whose buffer has 4096 bytes. -/
theorem wrbWritesOneByte : Obligations.WrbWritesOneByte := fun _ b s =>
  ⟨fun hidx => execWrbOn_writes (p := hardware) hidx b s, fun hidx => execWrbOn_of_le (p := hardware) hidx b s,
    fun _ => ⟨fun hidx => execWrbOn_writes hidx b s, fun hidx => execWrbOn_of_le hidx b s⟩⟩

/-- Settles O52: the read after the write is the read-after-write law of the buffer. -/
theorem rdbReadsOneByte : Obligations.RdbReadsOneByte := by
  refine fun idx s => ⟨fun hidx => ⟨execRdbOn_of_lt (p := hardware) hidx s, fun b => ?_⟩,
    fun hidx => execRdbOn_of_le (p := hardware) hidx s,
    fun p => ⟨fun hidx => ⟨execRdbOn_of_lt hidx s, fun b => execRdbOn_after_execWrbOn hidx b s⟩,
      fun hidx => execRdbOn_of_le hidx s⟩⟩
  obtain ⟨t, u, hwrb, hrdb, hhead⟩ := execRdbOn_after_execWrbOn (p := hardware) hidx b s
  have hwrb : exec (.wrb idx b) s = .next t := hwrb
  have hrdb : exec (.rdb idx) t = .next u := hrdb
  exact ⟨u, (runAll_cons hwrb _).trans (runAll_cons hrdb []), hhead⟩

end Sys2Proof.Machine
end

section
/-! SUPPORT. The illegal words (spec/60_exceptions.md R212), the failed command (R217), and the hardware reset input
(spec/70_reset_and_hazards.md R240, R241). -/

namespace Sys2Proof.Machine

/-! ### The hardware reset input -/

/-- After hardware reset every byte of the buffer is a free one of the new set (log 4). -/
theorem hardReset_memRead (s : State) (a : Nat) : s.hardReset.memRead a = Config.launchByte (s.launch + 1) a := rfl

/-- Settles O7: `softReset` leaves the reset values, and the list of written bytes is empty. -/
theorem hardwareResetLeavesTheResetState : Obligations.HardwareResetLeavesTheResetState := by
  intro s rest hport
  refine ⟨_, step_of_hardReset hport, ?_⟩
  rw [popPort_of_port hport]
  exact ⟨rfl, rfl, rfl, rfl, rfl, rfl, rfl, rfl, rfl, rfl, rfl, rfl, rfl, rfl, rfl, hardReset_memRead _⟩

/-! ### Illegal words -/

/-- The opcodes of R84 are those of the commands. -/
theorem mem_definedOpcodes_iff {op : Byte} : op ∈ definedOpcodes ↔ ∃ i : Instr, i.opcode = op := by
  constructor
  · have hall : ∀ op ∈ definedOpcodes, ∃ i : Instr, i.opcode = op := by
      simp only [definedOpcodes, List.forall_mem_cons]
      exact ⟨⟨.nop, rfl⟩, ⟨.rst, rfl⟩, ⟨.wrd 0 0, rfl⟩, ⟨.rdr 0, rfl⟩, ⟨.cons, rfl⟩, ⟨.refl 0 0, rfl⟩, ⟨.rawb 0, rfl⟩,
        ⟨.rdlut 0, rfl⟩, ⟨.begin, rfl⟩, ⟨.upd 0 0, rfl⟩, ⟨.updb 0, rfl⟩, ⟨.final, rfl⟩, ⟨.compute 0 0, rfl⟩,
        ⟨.getchk, rfl⟩, ⟨.check, rfl⟩, ⟨.ldcat 0, rfl⟩, ⟨.rdcat 0 0, rfl⟩, ⟨.wrb 0 0, rfl⟩, ⟨.rdb 0, rfl⟩, nofun⟩
    exact hall op
  · rintro ⟨i, rfl⟩
    cases i <;> simp [Instr.opcode, definedOpcodes]

/-- A word is a command exactly when `rsv` is zero and its opcode is one of R84 (R82). -/
theorem exists_decode_eq_ok_iff {w : CommandWord} :
    (∃ i, decode w = .ok i) ↔ rsvField w = 0 ∧ opField w ∈ definedOpcodes := by
  constructor
  · rintro ⟨i, hdecode⟩
    obtain ⟨hrsv, hop, -⟩ := decode_eq_ok_iff.mp hdecode
    exact ⟨hrsv, mem_definedOpcodes_iff.mpr ⟨i, hop.symm⟩⟩
  · rintro ⟨hrsv, hmem⟩
    obtain ⟨i, hop⟩ := mem_definedOpcodes_iff.mp hmem
    have hcommand := commandOf_opcode i (aField w) (vField w)
    rw [hop] at hcommand
    exact ⟨_, decode_eq_ok_iff.mpr ⟨hrsv, commandOf_eq_some_iff.mp hcommand⟩⟩

/-- No command answers `E_ILLEGAL` or `E_IO` (R212, R215). -/
theorem exec_status_ne (i : Instr) (s : State) :
    ∃ t q, exec i s = .next t ∧ t.responses = q :: s.responses ∧ q.st ≠ .eIllegal ∧ q.st ≠ .eIo := by
  obtain ⟨t, q, ht, hq, -⟩ := (exec_ends i s).answersOnce
  refine ⟨t, q, ht, hq, ?_⟩
  obtain ⟨hok, -⟩ | ⟨hst, -⟩ := execOn_cases (exec_eq_execOn i s ▸ ht) hq
  · simp [hok]
  · obtain h | h | h := hst <;> simp [h]

/-- Settles O4: a word the decoder refuses fails with `E_ILLEGAL`, and a command does not answer that status. -/
theorem illegalWordsAreRefusedExactly : Obligations.IllegalWordsAreRefusedExactly := by
  refine fun s w rest hport => ⟨fun hbad => ?_, fun hrsv hmem => ?_⟩
  · cases hdecode : decode w with
    | error why => exact step_of_decode_error hport hdecode
    | ok i =>
      obtain ⟨hrsv, hmem⟩ := exists_decode_eq_ok_iff.mp ⟨i, hdecode⟩
      exact absurd hbad (not_or.mpr ⟨not_not.mpr hrsv, not_not.mpr hmem⟩)
  · obtain ⟨i, hdecode⟩ := exists_decode_eq_ok_iff.mpr ⟨hrsv, hmem⟩
    obtain ⟨t, q, ht, hq, hne, -⟩ := exec_status_ne i { s with port := rest }
    exact ⟨t, q, (stepWith_of_decode exec hport hdecode).trans ht, hq, hne⟩

/-! ### Failed commands -/

/-- Settles O10: a step that does not answer `OK` leaves the state `failed`, whose response has value 0. -/
theorem failedCommandChangesNothingElse : Obligations.FailedCommandChangesNothingElse := by
  intro s t w rest q hport ht hq hst
  obtain ⟨hok, -⟩ | ⟨-, -, rfl⟩ := step_command_cases hport ht hq
  · exact absurd hok hst
  · exact ⟨congrArg Response.r (List.cons.inj hq).1.symm, rfl⟩

end Sys2Proof.Machine
end

section
/-! SUPPORT. Which status a command answers, in the order of spec/60_exceptions.md R218: `E_STATE` (R213), else `E_ARG` (R214),
else `E_SELFTEST` (R216), else `OK`. Each stage is one lemma over the commands, in a block with any parameters. -/

namespace Sys2Proof.Machine

variable {p : Params} {i : Instr} {s : State}

/-- In a running stream the engine and the register have values (R39, R40). -/
theorem State.InvOn.exists_stream? (h : s.InvOn p) (hss : s.ss = .running) : ∃ e c, s.stream? = some (e, c) := by
  obtain ⟨he, hc⟩ := h.stream_has (by simp [hss])
  obtain ⟨e, he⟩ := Option.isSome_iff_exists.mp he
  obtain ⟨c, hc⟩ := Option.isSome_iff_exists.mp hc
  exact ⟨e, c, stream?_eq_some.mpr ⟨hss, he, hc⟩⟩

/-- A command that needs an engine, and finds the state it needs, finds one (R213). -/
theorem exists_engine (hstate : ¬ s.engine = none) : ∃ e, s.engine = some e := Option.ne_none_iff_exists'.mp hstate

theorem lutLen_of_some {e : Engine} (he : s.engine = some e) : s.lutLen = e.lut.length := by
  simp only [State.lutLen, he]

/-- The operands RDR accepts are the indices of the registers (R35, R214). -/
theorem Reg.exists_index_eq {a : Nat} (h : ¬ BadOperandOn p (.rdr a) s) : ∃ r : Reg, r.index = a := by
  have hsome : ∃ r, Reg.ofIndex? a = some r := by
    obtain hle | ⟨hmin, hmax⟩ | ⟨hmin, hmax⟩ := not_not.mp h <;> interval_cases a <;> exact ⟨_, rfl⟩
  obtain ⟨r, hr⟩ := hsome
  exact ⟨r, index_of_ofIndex? hr⟩

/-- The active and derived registers have the indices 0x10 to 0x1B (R35). -/
theorem Reg.index_active_bounds (f : Field) : 0x10 ≤ (Reg.active f).index ∧ (Reg.active f).index ≤ 0x1B := by
  cases f <;> decide

theorem Reg.index_derived_bounds (d : Derived) : 0x10 ≤ (Reg.derived d).index ∧ (Reg.derived d).index ≤ 0x1B := by
  cases d <;> decide

/-- RDR of a register that shows no parameter is that of this hardware (R31). -/
theorem execOn_rdr_eq_exec (p : Params) (s : State) {a : Nat} (ha : a < 0x22 ∨ 0x23 < a) :
    execOn p (.rdr a) s = exec (.rdr a) s :=
  execRdrOn_eq_execRdr (by omega) (by omega) p s

/-! ### The three failures -/

/-- Under a condition of R213 the command fails with `E_STATE`, whatever its operand. -/
theorem execOn_of_needsOtherState (h : NeedsOtherState i s) : execOn p i s = .next (failed s .eState) := by
  cases i with
  | rdr a =>
    obtain ⟨hmin, hmax, he⟩ := h
    exact (execOn_rdr_eq_exec p s (.inl (by omega))).trans (exec_rdr_of_no_engine he hmin hmax)
  | rawb b => exact execRawb_of_none h b
  | rdlut k => exact execRdlut_of_none h k
  | begin => exact execBegin_of_none h
  | compute len off => exact execComputeOn_of_none h
  | getchk => exact execGetchk_of_none h
  | check => exact execCheck_of_none h
  | upd len off => exact execUpdOn_of_none (stream?_eq_none_of_not_running h) len off
  | updb b => exact execUpdb_of_none (stream?_eq_none_of_not_running h) b
  | final => exact execFinal_of_none (stream?_eq_none_of_not_running h)
  | nop | rst | wrd | cons | refl | ldcat | rdcat | wrb | rdb => exact h.elim

/-- In the state it needs, under a condition of R214, the command fails with `E_ARG`. -/
theorem execOn_of_badOperandOn (hinv : s.InvOn p) (hstate : ¬ NeedsOtherState i s) (h : BadOperandOn p i s) :
    execOn p i s = .next (failed s .eArg) := by
  cases i with
  | wrd reg v => exact exec_wrd_of_badOperand h
  | rdr a =>
    have ha : a < 0x22 ∨ 0x23 < a := by
      simp only [BadOperandOn] at h
      omega
    exact (execOn_rdr_eq_exec p s ha).trans (exec_rdr_of_badOperand h)
  | cons =>
    have hbits : s.staging.bits.toNat = 0 := congrArg BitVec.toNat h
    exact execCons_of_illegal (.inl (by omega))
  | refl n v => exact (if_pos h).trans (raise_eq_failed s nofun)
  | rdlut k =>
    obtain ⟨e, he⟩ := exists_engine hstate
    exact execRdlut_of_length_le he (lutLen_of_some he ▸ h)
  | upd len off =>
    obtain ⟨e, c, hstream⟩ := hinv.exists_stream? (not_not.mp hstate)
    exact execUpdOn_of_outside hstream h
  | compute len off =>
    obtain ⟨e, he⟩ := exists_engine hstate
    exact execComputeOn_of_outside he h
  | ldcat k => exact execLdcatOn_of_le h
  | rdcat entry sel => exact execRdcatOn_of_bad h
  | wrb idx b => exact execWrbOn_of_le h b s
  | rdb idx => exact execRdbOn_of_le h s
  | nop | rst | rawb | begin | updb | final | getchk | check => exact h.elim

/-- The condition for `E_SELFTEST` (R216). -/
def SelfTestFails (i : Instr) (s : State) : Prop :=
  i = .check ∧ ∃ e, s.engine = some e ∧ checksum e checkMessage ≠ e.check

theorem execOn_of_selfTestFails (h : SelfTestFails i s) : execOn p i s = .next (failed s .eSelftest) := by
  obtain ⟨rfl, e, he, hne⟩ := h
  exact execCheck_of_ne he hne

/-- The self-test is reached only with an engine (R218). -/
theorem SelfTestFails.not_needsOtherState (h : SelfTestFails i s) : ¬ NeedsOtherState i s := by
  obtain ⟨rfl, e, he, -⟩ := h
  exact Option.ne_none_iff_exists'.mpr ⟨e, he⟩

/-- CHECK has no operand (R214). -/
theorem SelfTestFails.not_badOperandOn (h : SelfTestFails i s) : ¬ BadOperandOn p i s := by
  obtain ⟨rfl, -⟩ := h
  exact id

/-! ### Success -/

/-- What was carried out in `s` ends in a next state with one response more, of status `OK`. -/
def AnswersOk (s : State) (o : Result) : Prop := ∃ t r, o = .next t ∧ t.responses = ⟨.ok, r⟩ :: s.responses

theorem AnswersOk.of_answered {u : State} {v : Word} {o : Result} (ho : o = .next (answered u v))
    (hu : u.responses = s.responses) : AnswersOk s o :=
  ⟨_, v, ho, congrArg _ hu⟩

/-- RDR of any register answers, when there is an engine to read or none is needed (R154). -/
theorem rdr_answersOk {a : Nat} (hstate : ¬ NeedsOtherState (.rdr a) s) (harg : ¬ BadOperandOn p (.rdr a) s) :
    AnswersOk s (execOn p (.rdr a) s) := by
  obtain ⟨r, rfl⟩ := Reg.exists_index_eq harg
  cases r with
  | staging f => exact .of_answered (execRdrOn_staging f) rfl
  | info j => exact .of_answered (execRdrOn_info p j rfl) rfl
  | active f =>
    obtain ⟨hmin, hmax⟩ := Reg.index_active_bounds f
    obtain ⟨e, he⟩ := exists_engine fun he => hstate ⟨hmin, hmax, he⟩
    rw [execOn_rdr_eq_exec p s (.inl (by omega))]
    exact .of_answered (exec_rdr_active he f rfl) rfl
  | derived d =>
    obtain ⟨hmin, hmax⟩ := Reg.index_derived_bounds d
    obtain ⟨e, he⟩ := exists_engine fun he => hstate ⟨hmin, hmax, he⟩
    rw [execOn_rdr_eq_exec p s (.inl (by omega))]
    exact .of_answered (exec_rdr_derived he d) rfl

/-- RDCAT of an assigned selector of an entry answers (R193). -/
theorem rdcat_answersOk {entry sel : Nat} (harg : ¬ BadOperandOn p (.rdcat entry sel) s) :
    AnswersOk s (execOn p (.rdcat entry sel) s) := by
  obtain ⟨hentry, hsel⟩ := not_or.mp harg
  obtain ⟨hfield, hlen, hchar⟩ := execOn_rdcat_of_some (catalogueEntry?_of_lt (Nat.lt_of_not_le hentry)) sel s
  obtain hsel | hsel | hsel : sel ≤ 7 ∨ sel = 8 ∨ 0x80 ≤ sel := by omega
  · obtain ⟨r, -, hanswer, -⟩ := hfield hsel
    exact .of_answered hanswer rfl
  · exact .of_answered (hlen hsel) rfl
  · exact .of_answered (hchar hsel) rfl

/-- Under none of the listed conditions the command answers `OK`. -/
theorem execOn_answersOk (hinv : s.InvOn p) (hstate : ¬ NeedsOtherState i s) (harg : ¬ BadOperandOn p i s)
    (hself : ¬ SelfTestFails i s) : AnswersOk s (execOn p i s) := by
  cases i with
  | nop | rst => exact ⟨_, _, rfl, rfl⟩
  | wrd reg v =>
    obtain ⟨f, rfl⟩ := Field.exists_index_eq (Nat.le_of_not_lt fun hlt => harg (.inl hlt))
    obtain ⟨d, hexec, -⟩ := exec_wrd_stages harg
    exact .of_answered hexec rfl
  | rdr a => exact rdr_answersOk hstate harg
  | cons =>
    have hpos : s.staging.bits.toNat ≠ 0 := fun h => harg (BitVec.eq_of_toNat_eq h)
    exact .of_answered (execCons_of_legal (Nat.one_le_iff_ne_zero.mpr hpos) hinv.staging_bits) rfl
  | refl n v => exact ⟨_, _, if_neg harg, rfl⟩
  | rawb b =>
    obtain ⟨e, he⟩ := exists_engine hstate
    exact ⟨_, _, execRawb_of_some he b, rfl⟩
  | rdlut k =>
    obtain ⟨e, he⟩ := exists_engine hstate
    have hk : k < e.lut.length := lutLen_of_some he ▸ Nat.lt_of_not_le harg
    exact ⟨_, _, execRdlut_of_entry he (List.getElem?_eq_getElem hk), rfl⟩
  | begin =>
    obtain ⟨e, he⟩ := exists_engine hstate
    exact ⟨_, _, execBegin_of_some he, rfl⟩
  | upd len off =>
    obtain ⟨e, c, hstream⟩ := hinv.exists_stream? (not_not.mp hstate)
    exact .of_answered (execUpdOn_of_inside hstream (Nat.le_of_not_lt harg)) rfl
  | updb b =>
    obtain ⟨e, c, hstream⟩ := hinv.exists_stream? (not_not.mp hstate)
    exact .of_answered (execUpdb_of_some hstream b) rfl
  | final =>
    obtain ⟨e, c, hstream⟩ := hinv.exists_stream? (not_not.mp hstate)
    exact .of_answered (execFinal_of_some hstream) rfl
  | compute len off =>
    obtain ⟨e, he⟩ := exists_engine hstate
    exact .of_answered (execComputeOn_of_inside he (Nat.le_of_not_lt harg)) rfl
  | getchk =>
    obtain ⟨e, he⟩ := exists_engine hstate
    exact ⟨_, _, execGetchk_of_some he, rfl⟩
  | check =>
    obtain ⟨e, he⟩ := exists_engine hstate
    exact .of_answered (execCheck_of_eq he (not_not.mp fun hne => hself ⟨rfl, e, he, hne⟩)) rfl
  | ldcat k => exact .of_answered (execLdcatOn_of_some (catalogueEntry?_of_lt (Nat.lt_of_not_le harg))) rfl
  | rdcat entry sel => exact rdcat_answersOk harg
  | wrb idx b => exact .of_answered (execWrbOn_of_lt (Nat.lt_of_not_le harg) b s) rfl
  | rdb idx => exact .of_answered (execRdbOn_of_lt (Nat.lt_of_not_le harg) s) rfl

/-! ### The statement -/

/-- A status is the one listed for the command `i` in the state `s` of a block with parameters `p` (R213 to R216, R218). -/
def StatusAsListed (p : Params) (i : Instr) (s : State) (st : Status) : Prop :=
  (st = .eState ↔ NeedsOtherState i s) ∧ (st = .eArg ↔ ¬ NeedsOtherState i s ∧ BadOperandOn p i s) ∧
  (st = .eSelftest ↔ SelfTestFails i s) ∧ st ≠ .eIllegal ∧ st ≠ .eIo

/-- Every command answers the status listed for it: the first whose condition holds, in the order of R218. -/
theorem execOn_statusAsListed (hinv : s.InvOn p) (i : Instr) :
    ∃ t q, execOn p i s = .next t ∧ t.responses = q :: s.responses ∧ StatusAsListed p i s q.st := by
  by_cases hstate : NeedsOtherState i s
  · have hself : ¬ SelfTestFails i s := fun h => h.not_needsOtherState hstate
    exact ⟨_, ⟨.eState, 0⟩, execOn_of_needsOtherState hstate, rfl, by simp [StatusAsListed, hstate, hself]⟩
  by_cases harg : BadOperandOn p i s
  · have hself : ¬ SelfTestFails i s := fun h => h.not_badOperandOn harg
    exact ⟨_, ⟨.eArg, 0⟩, execOn_of_badOperandOn hinv hstate harg, rfl, by simp [StatusAsListed, hstate, harg, hself]⟩
  by_cases hself : SelfTestFails i s
  · exact ⟨_, ⟨.eSelftest, 0⟩, execOn_of_selfTestFails hself, rfl, by simp [StatusAsListed, hstate, harg, hself]⟩
  · obtain ⟨t, r, ht, hr⟩ := execOn_answersOk hinv hstate harg hself
    exact ⟨t, ⟨.ok, r⟩, ht, hr, by simp [StatusAsListed, hstate, harg, hself]⟩

/-- Settles O12: for any parameters, and this hardware is the block with the parameters `hardware`. -/
theorem statusesAreRaisedExactlyWhenListed : Obligations.StatusesAreRaisedExactlyWhenListed := by
  refine ⟨fun i s hinv => ?_, fun p i s hinv => execOn_statusAsListed hinv i⟩
  rw [exec_eq_execOn]
  exact execOn_statusAsListed hinv i

end Sys2Proof.Machine
end
